-- ==== Sys2Proof/Word.lean ====
section
/-! DEFINITION. The cell value: a signed 64-bit integer (00_scope.md R7, R11). -/

namespace Sys2Proof

/-- A cell value, INT64 (R7). The 64 bits stand for the integer `toInt`; no instruction looks at a bit. DEDUCED: log 2. -/
abbrev Word := BitVec 64

/-- `in64(v)`: v is in INT64 (R11). -/
abbrev in64 (v : Int) : Prop := -9223372036854775808 ≤ v ∧ v ≤ 9223372036854775807

/-- The cell that holds the integer `v`; meant for `v` in INT64. -/
def Word.ofInt (v : Int) : Word := BitVec.ofInt 64 v

end Sys2Proof
end

