-- ==== Sys2Proof/Config.lean ====
section
/-! DEFINITION. The two parameters a model takes (00_scope.md R8, R9; 92_eei_decisions.md P1, P2). The machine has no
free value (40_execution_cycle.md R101), so no opaque constant stands here. -/

namespace Sys2Proof

/-- The parameters of one build. They stand in State and no step changes them: log 1. -/
structure Params where
  /-- MEM_LIMIT, the largest number of cells memory may grow to (R8). -/
  memLimit : Nat
  /-- STRICT_MODE_DIGITS: unused digits that are not zero make the decoder fault (R9). -/
  strictModeDigits : Bool
  deriving DecidableEq, Repr

/-- The defaults: MEM_LIMIT = 2^63 (R8), STRICT_MODE_DIGITS = false (R9). -/
def Params.default : Params where
  memLimit := 9223372036854775808
  strictModeDigits := false

/-- 1 ≤ MEM_LIMIT ≤ 2^63 (R8). -/
abbrev Params.wf (p : Params) : Prop := 1 ≤ p.memLimit ∧ p.memLimit ≤ 9223372036854775808

end Sys2Proof
end

