-- ==== Sys2Proof/Syntax.lean ====
section
/-! DEFINITION. Instructions as the decoder gives them: one constructor for each row of the opcode table
(30_encoding.md R62), with the modes of the operands the row has and the number its unused leading digits make. -/

namespace Sys2Proof

/-- The addressing modes (30_encoding.md R64). -/
inductive Mode where
  | position
  | immediate
  | relative
  deriving DecidableEq, Repr

/-- A decoded instruction. `m1 m2 m3` are the modes of operands 1, 2, 3; the raw operands stay in the cells after the
word and are fetched when the instruction runs (40_execution_cycle.md R85). `excess` is `w div 10^(n+2)`, the digits that
no field of the instruction uses (30_encoding.md R66): a fault's `fault_info` is the whole word, so they are kept (log 5). -/
inductive Instr where
  | add (m1 m2 m3 : Mode) (excess : Nat)
  | multiply (m1 m2 m3 : Mode) (excess : Nat)
  | input (m1 : Mode) (excess : Nat)
  | output (m1 : Mode) (excess : Nat)
  | jumpIfTrue (m1 m2 : Mode) (excess : Nat)
  | jumpIfFalse (m1 m2 : Mode) (excess : Nat)
  | lessThan (m1 m2 m3 : Mode) (excess : Nat)
  | equals (m1 m2 m3 : Mode) (excess : Nat)
  | setRelativeBase (m1 : Mode) (excess : Nat)
  | terminate (excess : Nat)
  deriving DecidableEq, Repr

/-- Why the decoder rejects a word (30_encoding.md R65 to R69). -/
inductive DecodeError where
  /-- A negative word, or an opcode that is not in the table (R68, R69). -/
  | unknownOpcode
  /-- A used mode digit of 3 to 9, or an unused digit that is not zero under STRICT_MODE_DIGITS (R65, R66). -/
  | unknownMode
  /-- A write operand in Immediate mode (R67). -/
  | invalidWriteMode
  deriving DecidableEq, Repr

end Sys2Proof
end

