-- ==== Sys2Proof/WellFormed.lean ====
section
/-! DEFINITION. Which instructions a word can encode (30_encoding.md R63, R66, R67, R72). Three checks: a write operand
is not Immediate; under STRICT_MODE_DIGITS there are no excess digits; the word stays within INT64. -/

namespace Sys2Proof

/-- A write operand may be Position or Relative, never Immediate (R63, R67). -/
def Mode.writable : Mode → Bool
  | .position => true
  | .immediate => false
  | .relative => true

/-- The excess digits are none under STRICT_MODE_DIGITS, and otherwise at most `most`, the largest number that leaves the
word within INT64 whatever the mode digits are (R66, R72). -/
def excessFits (strict : Bool) (most excess : Nat) : Bool :=
  if strict then excess == 0 else excess ≤ most

/-- The instructions some word decodes to. The bounds are (2^63 − 1) div 10^(n+2) for n operands, less one for TERMINATE,
whose two low digits are 99 where 2^63 − 1 ends in 07. -/
def Instr.wellFormed (strict : Bool) : Instr → Bool
  | .add _ _ m3 x => m3.writable && excessFits strict 92233720368547 x
  | .multiply _ _ m3 x => m3.writable && excessFits strict 92233720368547 x
  | .input m1 x => m1.writable && excessFits strict 9223372036854775 x
  | .output _ x => excessFits strict 9223372036854775 x
  | .jumpIfTrue _ _ x => excessFits strict 922337203685477 x
  | .jumpIfFalse _ _ x => excessFits strict 922337203685477 x
  | .lessThan _ _ m3 x => m3.writable && excessFits strict 92233720368547 x
  | .equals _ _ m3 x => m3.writable && excessFits strict 92233720368547 x
  | .setRelativeBase _ x => excessFits strict 9223372036854775 x
  | .terminate x => excessFits strict 92233720368547757 x

end Sys2Proof
end

