-- ==== Sys2Proof/Decode.lean ====
section
/-! DEFINITION. The instruction decoder and the encoder (30_encoding.md R60 to R72, R77). -/

namespace Sys2Proof

/-- `digit_k(w)`: the decimal digit of weight 10^k (00_scope.md R11). -/
def digit (k w : Nat) : Nat := w / 10 ^ k % 10

/-- The mode a mode digit names; 3 to 9 name none (R64, R65). -/
def Mode.ofDigit : Nat → Option Mode
  | 0 => some .position
  | 1 => some .immediate
  | 2 => some .relative
  | _ => none

/-- The digit of a mode (R64). -/
def Mode.toDigit : Mode → Nat
  | .position => 0
  | .immediate => 1
  | .relative => 2

/-- One row of the opcode table (R62): operand count, and which operand is the write target. -/
structure OpcodeRow where
  operandCount : Nat
  writeOperand : Option Nat
  deriving DecidableEq, Repr

/-- The opcode table, fixed and closed (R62): `none` for the 90 opcodes that select no instruction (R69). -/
def opcodeTable : Nat → Option OpcodeRow
  | 1 => some ⟨3, some 3⟩
  | 2 => some ⟨3, some 3⟩
  | 3 => some ⟨1, some 1⟩
  | 4 => some ⟨1, none⟩
  | 5 => some ⟨2, none⟩
  | 6 => some ⟨2, none⟩
  | 7 => some ⟨3, some 3⟩
  | 8 => some ⟨3, some 3⟩
  | 9 => some ⟨1, none⟩
  | 99 => some ⟨0, none⟩
  | _ => none

/-- Format F3W: two read operands and a write target (R63), with the checks in the order of R70. -/
def decodeF3W (strict : Bool) (make : Mode → Mode → Mode → Nat → Instr) (w : Nat) : Except DecodeError Instr :=
  match Mode.ofDigit (digit 2 w), Mode.ofDigit (digit 3 w), Mode.ofDigit (digit 4 w) with
  | some m1, some m2, some m3 =>
    if strict && w / 10 ^ 5 != 0 then .error .unknownMode
    else if m3 = .immediate then .error .invalidWriteMode
    else .ok (make m1 m2 m3 (w / 10 ^ 5))
  | _, _, _ => .error .unknownMode

/-- Format F2R: two read operands (R63). -/
def decodeF2R (strict : Bool) (make : Mode → Mode → Nat → Instr) (w : Nat) : Except DecodeError Instr :=
  match Mode.ofDigit (digit 2 w), Mode.ofDigit (digit 3 w) with
  | some m1, some m2 =>
    if strict && w / 10 ^ 4 != 0 then .error .unknownMode else .ok (make m1 m2 (w / 10 ^ 4))
  | _, _ => .error .unknownMode

/-- Format F1R: one read operand (R63). -/
def decodeF1R (strict : Bool) (make : Mode → Nat → Instr) (w : Nat) : Except DecodeError Instr :=
  match Mode.ofDigit (digit 2 w) with
  | some m1 => if strict && w / 10 ^ 3 != 0 then .error .unknownMode else .ok (make m1 (w / 10 ^ 3))
  | none => .error .unknownMode

/-- Format F1W: one write target (R63), with the checks in the order of R70. -/
def decodeF1W (strict : Bool) (make : Mode → Nat → Instr) (w : Nat) : Except DecodeError Instr :=
  match Mode.ofDigit (digit 2 w) with
  | some m1 =>
    if strict && w / 10 ^ 3 != 0 then .error .unknownMode
    else if m1 = .immediate then .error .invalidWriteMode
    else .ok (make m1 (w / 10 ^ 3))
  | none => .error .unknownMode

/-- Format F0: no operand (R63). -/
def decodeF0 (strict : Bool) (make : Nat → Instr) (w : Nat) : Except DecodeError Instr :=
  if strict && w / 10 ^ 2 != 0 then .error .unknownMode else .ok (make (w / 10 ^ 2))

/-- The decoder for a word that is not negative: the low two digits select the row (R60, R62, R69). -/
def decodeNat (strict : Bool) (w : Nat) : Except DecodeError Instr :=
  match w % 100 with
  | 1 => decodeF3W strict .add w
  | 2 => decodeF3W strict .multiply w
  | 3 => decodeF1W strict .input w
  | 4 => decodeF1R strict .output w
  | 5 => decodeF2R strict .jumpIfTrue w
  | 6 => decodeF2R strict .jumpIfFalse w
  | 7 => decodeF3W strict .lessThan w
  | 8 => decodeF3W strict .equals w
  | 9 => decodeF1R strict .setRelativeBase w
  | 99 => decodeF0 strict .terminate w
  | _ => .error .unknownOpcode

/-- `Decode(w)` (R70): a pure function of the word and STRICT_MODE_DIGITS. A negative word has no opcode (R68). -/
def decode (strict : Bool) (w : Word) : Except DecodeError Instr :=
  if w.toInt < 0 then .error .unknownOpcode else decodeNat strict w.toNat

/-- The instruction's opcode (R62). -/
def Instr.opcode : Instr → Nat
  | .add .. => 1
  | .multiply .. => 2
  | .input .. => 3
  | .output .. => 4
  | .jumpIfTrue .. => 5
  | .jumpIfFalse .. => 6
  | .lessThan .. => 7
  | .equals .. => 8
  | .setRelativeBase .. => 9
  | .terminate .. => 99

/-- Operand count n (R62). -/
def Instr.operandCount : Instr → Nat
  | .add .. => 3
  | .multiply .. => 3
  | .input .. => 1
  | .output .. => 1
  | .jumpIfTrue .. => 2
  | .jumpIfFalse .. => 2
  | .lessThan .. => 3
  | .equals .. => 3
  | .setRelativeBase .. => 1
  | .terminate .. => 0

/-- Cells the instruction occupies: operand count + 1 (R61). -/
def Instr.length (i : Instr) : Nat := i.operandCount + 1

/-- Which operand is the write target (R62). -/
def Instr.writeOperand : Instr → Option Nat
  | .add .. => some 3
  | .multiply .. => some 3
  | .input .. => some 1
  | .output .. => none
  | .jumpIfTrue .. => none
  | .jumpIfFalse .. => none
  | .lessThan .. => some 3
  | .equals .. => some 3
  | .setRelativeBase .. => none
  | .terminate .. => none

/-- The three mode fields; a field the instruction does not use reads as Position (R70). -/
def Instr.modes : Instr → Mode × Mode × Mode
  | .add m1 m2 m3 _ => (m1, m2, m3)
  | .multiply m1 m2 m3 _ => (m1, m2, m3)
  | .input m1 _ => (m1, .position, .position)
  | .output m1 _ => (m1, .position, .position)
  | .jumpIfTrue m1 m2 _ => (m1, m2, .position)
  | .jumpIfFalse m1 m2 _ => (m1, m2, .position)
  | .lessThan m1 m2 m3 _ => (m1, m2, m3)
  | .equals m1 m2 m3 _ => (m1, m2, m3)
  | .setRelativeBase m1 _ => (m1, .position, .position)
  | .terminate _ => (.position, .position, .position)

/-- The excess digits, as one number (R66). -/
def Instr.excess : Instr → Nat
  | .add _ _ _ x => x
  | .multiply _ _ _ x => x
  | .input _ x => x
  | .output _ x => x
  | .jumpIfTrue _ _ x => x
  | .jumpIfFalse _ _ x => x
  | .lessThan _ _ _ x => x
  | .equals _ _ _ x => x
  | .setRelativeBase _ x => x
  | .terminate x => x

/-- The value of the instruction word: opcode, mode digits and excess digits at their weights (R60, R74). -/
def encodeNat : Instr → Nat
  | .add m1 m2 m3 x => 1 + 100 * m1.toDigit + 1000 * m2.toDigit + 10000 * m3.toDigit + 100000 * x
  | .multiply m1 m2 m3 x => 2 + 100 * m1.toDigit + 1000 * m2.toDigit + 10000 * m3.toDigit + 100000 * x
  | .input m1 x => 3 + 100 * m1.toDigit + 1000 * x
  | .output m1 x => 4 + 100 * m1.toDigit + 1000 * x
  | .jumpIfTrue m1 m2 x => 5 + 100 * m1.toDigit + 1000 * m2.toDigit + 10000 * x
  | .jumpIfFalse m1 m2 x => 6 + 100 * m1.toDigit + 1000 * m2.toDigit + 10000 * x
  | .lessThan m1 m2 m3 x => 7 + 100 * m1.toDigit + 1000 * m2.toDigit + 10000 * m3.toDigit + 100000 * x
  | .equals m1 m2 m3 x => 8 + 100 * m1.toDigit + 1000 * m2.toDigit + 10000 * m3.toDigit + 100000 * x
  | .setRelativeBase m1 x => 9 + 100 * m1.toDigit + 1000 * x
  | .terminate x => 99 + 100 * x

/-- The instruction word of an instruction (R60). -/
def encode (i : Instr) : Word := BitVec.ofNat 64 (encodeNat i)

/-- The decoder's outputs when `ok` = 1 (R70, the decoder's hardware interface). -/
structure DecoderPorts where
  kind : BitVec 7
  n : BitVec 2
  length : BitVec 3
  mode1 : BitVec 2
  mode2 : BitVec 2
  mode3 : BitVec 2
  /-- 0 for none, else 1 or 3. -/
  writeIndex : BitVec 2
  deriving DecidableEq, Repr

/-- The cause code of a decoder fault (60_exceptions.md R170). -/
def DecodeError.code : DecodeError → BitVec 4
  | .unknownOpcode => 2
  | .invalidWriteMode => 3
  | .unknownMode => 5

/-- The outputs for a decoded instruction (R70). -/
def Instr.ports (i : Instr) : DecoderPorts where
  kind := BitVec.ofNat 7 i.opcode
  n := BitVec.ofNat 2 i.operandCount
  length := BitVec.ofNat 3 i.length
  mode1 := BitVec.ofNat 2 i.modes.1.toDigit
  mode2 := BitVec.ofNat 2 i.modes.2.1.toDigit
  mode3 := BitVec.ofNat 2 i.modes.2.2.toDigit
  writeIndex := BitVec.ofNat 2 (i.writeOperand.getD 0)

/-- The decoder as hardware (R70): `.ok` carries the outputs for `ok` = 1, `.error` the `fault_code` output for `ok` = 0.
The rule gives the other outputs no meaning when `ok` = 0, so they have no value here. -/
def decoderPorts (strict : Bool) (w : Word) : Except (BitVec 4) DecoderPorts :=
  match decode strict w with
  | .ok i => .ok i.ports
  | .error e => .error e.code

/-- Cell k of an instruction given as one number, bit 0 the least significant bit of its first cell (log 21). -/
def cellOfBits (nbits w k : Nat) : Word := BitVec.ofNat 64 (w % 2 ^ nbits / 2 ^ (64 * k))

/-- What the decoder reads from an instruction whose bits are `w`, under the default parameters (log 21). -/
def decodeTableWord (nbits w : Nat) : Option Instr :=
  match decode Params.default.strictModeDigits (cellOfBits nbits w 0) with
  | .ok i => some i
  | .error _ => none

end Sys2Proof
end

