-- ==== Sys2Proof/Machine/State.lean ====
section
/-! DEFINITION. The state of one core (10_state.md R20, R32), its parameters, and the channel to its driver
(40_execution_cycle.md R102), as plain data; the state right after reset (R34). -/

namespace Sys2Proof.Machine

/-- Memory: the cells that do not hold 0, as (cell address, value) pairs in rising address order (20_memory.md R40, R46).
The machine has no bytes (R48), so a pair holds a whole cell: log 2. -/
abbrev Memory := List (Nat × Word)

/-- The execution state machine's state (10_state.md R25). -/
inductive ExecState where
  | running
  | awaitingInput
  | halted
  | faulted
  deriving DecidableEq, Repr

/-- The cause codes (60_exceptions.md R170). These are the core's own faults: each has an entry the spec describes and is
taken in a next state. -/
inductive FaultCode where
  /-- Code 0: no fault has been taken. -/
  | noFault
  /-- Code 1: a negative address. -/
  | addressError
  /-- Code 2: a negative word, or an opcode that is not in the table. -/
  | unknownOpcodeError
  /-- Code 3: a write operand in Immediate mode. -/
  | invalidWriteModeError
  /-- Code 4: a resume of a Halted core. -/
  | alreadyHaltedError
  /-- Code 5: a used mode digit 3 to 9, or a strict unused digit. -/
  | unknownModeError
  /-- Code 6: a result or new relative base outside INT64. -/
  | overflowError
  /-- Code 7: an address at or above MEM_LIMIT. -/
  | capacityError
  /-- Code 8: a value offered while no INPUT is pending. -/
  | inputProtocolError
  deriving DecidableEq, Repr

/-- Why LOAD refuses (70_reset_and_hazards.md R201). -/
inductive LoadError where
  | malformed
  | range
  | tooLarge
  deriving DecidableEq, Repr

/-- A memory snapshot (20_memory.md R47): its length and the cells that do not hold 0; the value of cell a is 0 where
`cells` lists none. `Snapshot.toList` in Ops.lean is the sequence itself. Log 14. -/
structure Snapshot where
  len : Nat
  cells : Memory
  deriving DecidableEq, Repr

/-- What the core sends its driver: the events of 40_execution_cycle.md R89 and the answers to LOAD (R102). -/
inductive Response where
  | ready
  | loadError (reason : LoadError)
  | needInput (ctx : Nat)
  | output (v : Word)
  | halted (snapshot : Snapshot)
  | fault (code : FaultCode) (pc : Nat) (info : Int)
  deriving DecidableEq, Repr

/-- What the driver sends the core (40_execution_cycle.md R102). LOAD comes as an image, or as the program text that
LOAD parses first (70_reset_and_hazards.md R201; log 15). -/
inductive Command where
  | load (image : List Word)
  | loadText (text : List Char)
  | resume
  | resumeWith (v : Word)
  deriving DecidableEq, Repr

/-- One core and its channel. -/
structure State where
  /-- The parameters of the build (00_scope.md R8, R9); no step changes them. Log 1. -/
  params : Params
  /-- `mem` (10_state.md R20): the cells that do not hold 0. -/
  mem : Memory
  /-- `mem_len`, the number of cells memory holds (10_state.md R29). -/
  memLen : Nat
  /-- `pc`, a natural number with no wrap-around (10_state.md R22). Log 4. -/
  pc : Nat
  /-- `rb`, the relative base (10_state.md R23). -/
  rb : Word
  /-- `state` (10_state.md R25). -/
  state : ExecState
  /-- `halted`, sticky (10_state.md R26). -/
  halted : Bool
  /-- `pending_target`, the target a suspended INPUT latched (10_state.md R28). -/
  pendingTarget : Nat
  /-- `fault_code` (10_state.md R31). -/
  faultCode : FaultCode
  /-- `fault_pc` (10_state.md R31). -/
  faultPc : Nat
  /-- `fault_info`, an exact integer (10_state.md R31). -/
  faultInfo : Int
  /-- The model's own: a RESUME is being served and has not responded (40_execution_cycle.md R91, R102). Log 8. -/
  resuming : Bool
  /-- The model's own: the commands the driver still has to send, the next one first. Log 9. -/
  driver : List Command
  /-- The model's own: the responses sent, oldest first. Log 10. -/
  responses : List Response
  deriving DecidableEq, Repr

/-- Why the model stops with a fault: never. Every fault of this machine has an entry that the spec describes
(60_exceptions.md R180) and is a next state, so this type has no constructor. Safe: log 7. -/
inductive Fault where
  deriving DecidableEq, Repr

/-- Why the model refuses. -/
inductive Refusal where
  /-- Raised by an arm of `exec` whose instruction has no meaning yet; no arm is so. Safe. -/
  | notModelled (mnemonic : String)
  /-- Raised by `submit`: a command sent while a RESUME has not responded "has no defined effect, and the interface
  refuses it" (40_execution_cycle.md R102). Safe: log 13. -/
  | commandWhileBusy
  deriving DecidableEq, Repr

/-- The state after reset (10_state.md R34; 70_reset_and_hazards.md R200), for the image of no cells and the default
parameters, before any command (log 11). -/
def State.reset : State where
  params := Params.default
  mem := []
  memLen := 0
  pc := 0
  rb := 0
  state := .running
  halted := false
  pendingTarget := 0
  faultCode := .noFault
  faultPc := 0
  faultInfo := 0
  resuming := false
  driver := []
  responses := []

end Sys2Proof.Machine
end

