-- ==== Sys2Proof/Machine/Ops.lean ====
section
/-! DEFINITION. The named operations on memory and registers: the memory unit (20_memory.md R41 to R47, R57), events
(40_execution_cycle.md R89), and taking a fault (60_exceptions.md R180). There is no return from a fault (R185). -/

namespace Sys2Proof.Machine

/-! Memory as a canonical list: addresses rise strictly and no listed cell holds 0, which is what an unlisted cell reads
as (20_memory.md R46). -/

/-- The value of cell `a`; a cell never written reads 0 (R46). -/
def Memory.read : Memory → Nat → Word
  | [], _ => 0
  | (b, v) :: rest, a => if a = b then v else Memory.read rest a

/-- The memory without cell `a`. -/
def Memory.erase (m : Memory) (a : Nat) : Memory := m.filter fun c => c.1 != a

/-- The memory with the pair `(a, v)` put before the first higher address. -/
def Memory.insertCell : Memory → Nat → Word → Memory
  | [], a, v => [(a, v)]
  | c :: rest, a, v => if a < c.1 then (a, v) :: c :: rest else c :: Memory.insertCell rest a v

/-- `mem[a] <- v`. Writing 0 unlists the cell. -/
def Memory.write (m : Memory) (a : Nat) (v : Word) : Memory :=
  if v = 0 then m.erase a else (m.erase a).insertCell a v

/-- The canonical form. -/
abbrev Memory.wf (m : Memory) : Prop := m.Pairwise (fun c d => c.1 < d.1) ∧ ∀ c ∈ m, c.2 ≠ 0

/-- The memory that holds `image` from address `a` on (70_reset_and_hazards.md R200). -/
def Memory.ofImageAt : Nat → List Word → Memory
  | _, [] => []
  | a, v :: rest => if v = 0 then Memory.ofImageAt (a + 1) rest else (a, v) :: Memory.ofImageAt (a + 1) rest

/-! Registers and cells. -/

/-- `mem[a]`. -/
def State.cell (s : State) (a : Nat) : Word := s.mem.read a

/-- `mem[a] <- v`. -/
def State.setCell (s : State) (a : Nat) (v : Word) : State := { s with mem := s.mem.write a v }

/-- `Extend(a)` (20_memory.md R44). The new cells hold 0, so they are not listed: log 3. -/
def State.extend (s : State) (a : Nat) : State := { s with memLen := a + 1 }

/-- Auto-extend: grow memory so that cell `a` exists, if it does not (R42 to R44). -/
def State.grow (s : State) (a : Nat) : State := if s.memLen ≤ a then s.extend a else s

/-- Advance `pc` by the instruction's length (10_state.md R22). -/
def State.advance (s : State) (length : Nat) : State := { s with pc := s.pc + length }

/-- `rb <- v`. -/
def State.setRb (s : State) (v : Word) : State := { s with rb := v }

/-- `Snapshot()` (20_memory.md R47). -/
def State.snapshot (s : State) : Snapshot := ⟨s.memLen, s.mem⟩

/-- The sequence a snapshot stands for: cells 0 to len − 1 in address order (R47). -/
def Snapshot.toList (p : Snapshot) : List Word := (List.range p.len).map p.cells.read

/-! Events and faults. -/

/-- Send a response (40_execution_cycle.md R102). -/
def State.respond (s : State) (r : Response) : State := { s with responses := s.responses ++ [r] }

/-- `emit E`: the current `resume` call ends and returns E (00_scope.md R12). -/
def State.emit (s : State) (r : Response) : State := { s.respond r with resuming := false }

/-- `TakeFault(F, info)` (60_exceptions.md R180): the record is written from the pc at the fault, the core enters
Faulted, and the resume call returns the Fault event. `halted` and everything else is unchanged. -/
def takeFault (f : FaultCode) (info : Int) (s : State) : State :=
  { s with faultCode := f, faultPc := s.pc, faultInfo := info, state := .faulted }.emit (.fault f s.pc info)

/-- How a stage of an instruction ends: with a value and the state it leaves, or with a fault taken (00_scope.md R13). -/
inductive Res (α : Type) where
  | ok (a : α) (s : State)
  /-- `raise F(info)` happened; `s` is the state after the fault's entry. -/
  | raised (s : State)
  deriving DecidableEq, Repr

/-- The next stage runs only if the one before raised nothing (R13). -/
def Res.bind {α β : Type} (r : Res α) (next : α → State → Res β) : Res β :=
  match r with
  | .ok a s => next a s
  | .raised s => .raised s

/-- The state a stage leaves, whether or not it raised. -/
def Res.state {α : Type} (r : Res α) : State :=
  match r with
  | .ok _ s => s
  | .raised s => s

/-- The outcome of an instruction: completed or faulted, the machine has a next state. -/
def Res.outcome {α : Type} (r : Res α) : Host.Outcome State Fault Refusal := .next r.state

/-- `raise F(info)` (00_scope.md R12). -/
def raise {α : Type} (f : FaultCode) (info : Int) (s : State) : Res α := .raised (takeFault f info s)

/-- The fault that an address meets, if any (20_memory.md R41). -/
def addressFault (memLimit : Nat) (a : Int) : Option FaultCode :=
  if a < 0 then some .addressError else if (memLimit : Int) ≤ a then some .capacityError else none

/-- `AddrCheck(a)`, the memory unit's CHECK (R41, R57): no growth. -/
def addrCheck (a : Int) (s : State) : Res Nat :=
  match addressFault s.params.memLimit a with
  | some f => raise f a s
  | none => .ok a.toNat s

/-- `MemRead(a, 1)`, the memory unit's READ (R42, R57). -/
def memRead (a : Int) (s : State) : Res Word :=
  (addrCheck a s).bind fun n s => .ok ((s.grow n).cell n) (s.grow n)

/-- `MemWrite(a, 1, v)`, the memory unit's WRITE (R43, R57). -/
def memWrite (a : Int) (v : Word) (s : State) : Res Unit :=
  (addrCheck a s).bind fun n s => .ok () ((s.grow n).setCell n v)

/-- `JumpTo(t)` (43_jumps.md R132): a negative target faults and leaves pc; a target at or above MEM_LIMIT is left to the
next fetch. -/
def jumpTo (t : Word) (s : State) : Res Unit :=
  if t.toInt < 0 then raise .addressError t.toInt s else .ok () { s with pc := t.toInt.toNat }

/-- The fault a decoder error raises (60_exceptions.md R170). -/
def faultOfDecodeError : DecodeError → FaultCode
  | .unknownOpcode => .unknownOpcodeError
  | .unknownMode => .unknownModeError
  | .invalidWriteMode => .invalidWriteModeError

end Sys2Proof.Machine
end

