-- ==== Sys2Proof/Machine/Flags.lean ====
section
/-! DEFINITION. Conditions and the ALU. The core has no condition flags (10_state.md R27): a comparison's result is a
cell value, an overflow is a fault, and the one flag, `halted`, is written by TERMINATE. -/

namespace Sys2Proof.Machine

/-- A comparison writes exactly 1 for true and 0 for false (44_compare.md R142). -/
def boolWord (b : Bool) : Word := if b then 1 else 0

/-- A conditional jump takes 0 as false and every other value as true (R142). -/
def truth (v : Word) : Bool := v != 0

/-- The ALU's operations (41_arithmetic.md R110). -/
inductive AluOp where
  | add
  | mul
  | lt
  | eq
  deriving DecidableEq, Repr

/-- The exact result, before the check against INT64 (R110). Comparisons are signed. -/
def aluExact (op : AluOp) (a b : Word) : Int :=
  match op with
  | .add => a.toInt + b.toInt
  | .mul => a.toInt * b.toInt
  | .lt => (boolWord (decide (a.toInt < b.toInt))).toInt
  | .eq => (boolWord (decide (a.toInt = b.toInt))).toInt

/-- The ALU (R110): `none` is the overflow indication. -/
def alu (op : AluOp) (a b : Word) : Option Word :=
  if in64 (aluExact op a b) then some (Word.ofInt (aluExact op a b)) else none

/-- Run the ALU; an overflow raises OverflowError with the instruction word (R111). -/
def aluStage (op : AluOp) (a b w : Word) (s : State) : Res Word :=
  match alu op a b with
  | some r => .ok r s
  | none => raise .overflowError w.toInt s

/-- `halted <- true; state <- Halted` (46_terminate.md R160; 10_state.md R26). -/
def State.halt (s : State) : State := { s with halted := true, state := .halted }

end Sys2Proof.Machine
end

