-- ==== Sys2Proof/Machine/Operands.lean ====
section
/-! DEFINITION. Operand resolution (40_execution_cycle.md R80 to R83) and the operand stages of a step (R85): raw operands
in order, then reads in ascending operand order, then the target check. -/

namespace Sys2Proof.Machine

/-- The address a mode and raw operand give: Position the raw value, Relative the exact sum with rb (R81). An Immediate
operand has none. -/
def operandAddr (m : Mode) (rb raw : Word) : Option Int :=
  match m with
  | .position => some raw.toInt
  | .immediate => none
  | .relative => some (rb.toInt + raw.toInt)

/-- Raw operand k, the cell at pc + k (30_encoding.md R71). -/
def fetchRaw (k : Nat) (s : State) : Res Word := memRead ((s.pc + k : Nat) : Int) s

/-- `ResolveRead(m, r)` (R80). -/
def resolveRead (m : Mode) (raw : Word) (s : State) : Res Word :=
  match operandAddr m s.rb raw with
  | some a => memRead a s
  | none => .ok raw s

/-- `ResolveWrite(m, r)` (R82): the address is checked and not accessed. The decoder never gives an Immediate target; were
one to arrive, it raises the error the source puts here (30_encoding.md R67; log 6). -/
def resolveWrite (m : Mode) (raw w : Word) (s : State) : Res Nat :=
  match operandAddr m s.rb raw with
  | some a => addrCheck a s
  | none => raise .invalidWriteModeError w.toInt s

/-- Format F3W: the two values read, and the target's address. -/
def operandsF3W (m1 m2 m3 : Mode) (w : Word) (s : State) : Res (Word × Word × Nat) :=
  (fetchRaw 1 s).bind fun r1 s =>
  (fetchRaw 2 s).bind fun r2 s =>
  (fetchRaw 3 s).bind fun r3 s =>
  (resolveRead m1 r1 s).bind fun a s =>
  (resolveRead m2 r2 s).bind fun b s =>
  (resolveWrite m3 r3 w s).bind fun t s => .ok (a, b, t) s

/-- Format F2R: the two values read. -/
def operandsF2R (m1 m2 : Mode) (s : State) : Res (Word × Word) :=
  (fetchRaw 1 s).bind fun r1 s =>
  (fetchRaw 2 s).bind fun r2 s =>
  (resolveRead m1 r1 s).bind fun a s =>
  (resolveRead m2 r2 s).bind fun b s => .ok (a, b) s

/-- Format F1R: the value read. -/
def operandF1R (m1 : Mode) (s : State) : Res Word :=
  (fetchRaw 1 s).bind fun r1 s => resolveRead m1 r1 s

/-- Format F1W: the target's address. -/
def operandF1W (m1 : Mode) (w : Word) (s : State) : Res Nat :=
  (fetchRaw 1 s).bind fun r1 s => resolveWrite m1 r1 w s

/-- An ALU instruction: operands, result, one write, then pc (41_arithmetic.md R112, R113; 44_compare.md R140, R141). -/
def aluInstr (op : AluOp) (m1 m2 m3 : Mode) (w : Word) (s : State) : Res Unit :=
  (operandsF3W m1 m2 m3 w s).bind fun o s =>
  (aluStage op o.1 o.2.1 w s).bind fun r s =>
  (memWrite (o.2.2 : Int) r s).bind fun _ s => .ok () (s.advance 4)

/-- A conditional jump: both operands are resolved; the jump is taken if the condition's truth is `sense`, else pc
advances (43_jumps.md R130, R131). -/
def jumpInstr (sense : Bool) (m1 m2 : Mode) (s : State) : Res Unit :=
  (operandsF2R m1 m2 s).bind fun o s =>
  if truth o.1 = sense then jumpTo o.2 s else .ok () (s.advance 3)

/-! The same operands as plain values of a state, for statements about the machine. -/

/-- Raw operand k of the instruction at pc. -/
def State.raw (s : State) (k : Nat) : Word := s.cell (s.pc + k)

/-- The value a read operand resolves to (R83). -/
def State.operand (s : State) (m : Mode) (k : Nat) : Word :=
  match operandAddr m s.rb (s.raw k) with
  | some a => s.cell a.toNat
  | none => s.raw k

/-- Operand k's address, where its mode gives one, is an address that exists (20_memory.md R41). -/
abbrev State.reachable (s : State) (m : Mode) (k : Nat) : Prop :=
  ∀ a ∈ operandAddr m s.rb (s.raw k), addressFault s.params.memLimit a = none

/-- The n raw operands are below MEM_LIMIT. -/
abbrev State.rawsExist (s : State) (n : Nat) : Prop := s.pc + n < s.params.memLimit

/-- The address operand k is written to, where it has one that exists (R82). -/
def State.target (s : State) (m : Mode) (k : Nat) : Option Nat :=
  match operandAddr m s.rb (s.raw k) with
  | some a => if addressFault s.params.memLimit a = none then some a.toNat else none
  | none => none

/-- The length memory needs for a read of operand k (20_memory.md R44); 0 where nothing is read. -/
def State.reach (s : State) (m : Mode) (k : Nat) : Nat :=
  match operandAddr m s.rb (s.raw k) with
  | some a => a.toNat + 1
  | none => 0

/-- `mem_len` after n raw operands are fetched (30_encoding.md R71). -/
def State.lenRaws (s : State) (n : Nat) : Nat := max s.memLen (s.pc + n + 1)

/-- `mem_len` after the reads of an instruction with one read operand. -/
def State.lenF1R (s : State) (m1 : Mode) : Nat := max (s.lenRaws 1) (s.reach m1 1)

/-- `mem_len` after the reads of an instruction with n raw operands, of which the first two are read. -/
def State.lenReads (s : State) (n : Nat) (m1 m2 : Mode) : Nat := max (max (s.lenRaws n) (s.reach m1 1)) (s.reach m2 2)

end Sys2Proof.Machine
end

