-- ==== Sys2Proof/Machine/Arithmetic.lean ====
section
/-! DEFINITION. ADD and MULTIPLY (41_arithmetic.md). -/

namespace Sys2Proof.Machine

/-- ADD (R112). -/
def execAdd (m1 m2 m3 : Mode) (x : Nat) (s : State) : Host.Outcome State Fault Refusal :=
  (aluInstr .add m1 m2 m3 (encode (.add m1 m2 m3 x)) s).outcome

/-- MULTIPLY (R113). -/
def execMultiply (m1 m2 m3 : Mode) (x : Nat) (s : State) : Host.Outcome State Fault Refusal :=
  (aluInstr .mul m1 m2 m3 (encode (.multiply m1 m2 m3 x)) s).outcome

end Sys2Proof.Machine
end

