-- ==== Sys2Proof/Machine/Compare.lean ====
section
/-! DEFINITION. LESS_THAN and EQUALS (44_compare.md). -/

namespace Sys2Proof.Machine

/-- LESS_THAN (R140). -/
def execLessThan (m1 m2 m3 : Mode) (x : Nat) (s : State) : Host.Outcome State Fault Refusal :=
  (aluInstr .lt m1 m2 m3 (encode (.lessThan m1 m2 m3 x)) s).outcome

/-- EQUALS (R141). -/
def execEquals (m1 m2 m3 : Mode) (x : Nat) (s : State) : Host.Outcome State Fault Refusal :=
  (aluInstr .eq m1 m2 m3 (encode (.equals m1 m2 m3 x)) s).outcome

end Sys2Proof.Machine
end

