-- ==== Sys2Proof/Machine/InputOutput.lean ====
section
/-! DEFINITION. INPUT and OUTPUT (42_io.md). -/

namespace Sys2Proof.Machine

/-- The suspension half of INPUT (R120): the target is latched and the driver is asked; pc stays at the INPUT. -/
def suspendInput (t : Nat) (s : State) : State :=
  { s with pendingTarget := t, state := .awaitingInput }.emit (.needInput s.pc)

/-- INPUT (R120). The completion half is `completeInput` in Protocol.lean (40_execution_cycle.md R92). -/
def execInput (m1 : Mode) (x : Nat) (s : State) : Host.Outcome State Fault Refusal :=
  ((operandF1W m1 (encode (.input m1 x)) s).bind fun t s => .ok () (suspendInput t s)).outcome

/-- OUTPUT (R122): pc advances, then the event is emitted; the core stays Running. -/
def execOutput (m1 : Mode) (_x : Nat) (s : State) : Host.Outcome State Fault Refusal :=
  ((operandF1R m1 s).bind fun v s => .ok () ((s.advance 2).emit (.output v))).outcome

end Sys2Proof.Machine
end

