-- ==== Sys2Proof/Machine/Jumps.lean ====
section
/-! DEFINITION. JUMP_IF_TRUE and JUMP_IF_FALSE (43_jumps.md). -/

namespace Sys2Proof.Machine

/-- JUMP_IF_TRUE (R130). -/
def execJumpIfTrue (m1 m2 : Mode) (_x : Nat) (s : State) : Host.Outcome State Fault Refusal :=
  (jumpInstr true m1 m2 s).outcome

/-- JUMP_IF_FALSE (R131). -/
def execJumpIfFalse (m1 m2 : Mode) (_x : Nat) (s : State) : Host.Outcome State Fault Refusal :=
  (jumpInstr false m1 m2 s).outcome

end Sys2Proof.Machine
end

