-- ==== Sys2Proof/Machine/RelativeBase.lean ====
section
/-! DEFINITION. SET_RELATIVE_BASE (45_relative_base.md), the only writer of the relative base. -/

namespace Sys2Proof.Machine

/-- SET_RELATIVE_BASE (R150): the operand is resolved with the old rb and added to it. -/
def execSetRelativeBase (m1 : Mode) (x : Nat) (s : State) : Host.Outcome State Fault Refusal :=
  ((operandF1R m1 s).bind fun d s =>
    (aluStage .add s.rb d (encode (.setRelativeBase m1 x)) s).bind fun r s =>
    .ok () ((s.setRb r).advance 2)).outcome

end Sys2Proof.Machine
end

