-- ==== Sys2Proof/Machine/Terminate.lean ====
section
/-! DEFINITION. TERMINATE (46_terminate.md). -/

namespace Sys2Proof.Machine

/-- TERMINATE (R160): pc stays at the word. -/
def execTerminate (_x : Nat) (s : State) : Host.Outcome State Fault Refusal :=
  .next (s.halt.emit (.halted s.snapshot))

end Sys2Proof.Machine
end

