-- ==== Sys2Proof/Machine/Dispatch.lean ====
section
/-! DEFINITION. `exec`: the meaning of each instruction (30_encoding.md R62). -/

namespace Sys2Proof.Machine

def exec (i : Instr) (s : State) : Host.Outcome State Fault Refusal :=
  match i with
  | .add m1 m2 m3 x => Sys2Proof.Machine.execAdd m1 m2 m3 x s
  | .multiply m1 m2 m3 x => Sys2Proof.Machine.execMultiply m1 m2 m3 x s
  | .input m1 x => Sys2Proof.Machine.execInput m1 x s
  | .output m1 x => Sys2Proof.Machine.execOutput m1 x s
  | .jumpIfTrue m1 m2 x => Sys2Proof.Machine.execJumpIfTrue m1 m2 x s
  | .jumpIfFalse m1 m2 x => Sys2Proof.Machine.execJumpIfFalse m1 m2 x s
  | .lessThan m1 m2 m3 x => Sys2Proof.Machine.execLessThan m1 m2 m3 x s
  | .equals m1 m2 m3 x => Sys2Proof.Machine.execEquals m1 m2 m3 x s
  | .setRelativeBase m1 x => Sys2Proof.Machine.execSetRelativeBase m1 x s
  | .terminate x => Sys2Proof.Machine.execTerminate x s

end Sys2Proof.Machine
end

