-- ==== Sys2Proof/Machine/Fetch.lean ====
section
/-! DEFINITION. The first two stages of a step: fetch and decode (40_execution_cycle.md R85). -/

namespace Sys2Proof.Machine

/-- Fetch the word at pc, growing memory if it lies beyond, and decode it (R85; 20_memory.md R45). -/
def fetchDecode (s : State) : Res Instr :=
  (memRead (s.pc : Int) s).bind fun w s =>
  match decode s.params.strictModeDigits w with
  | .ok i => .ok i s
  | .error e => raise (faultOfDecodeError e) w.toInt s

/-- The instruction given as bits in four cells from pc on, with a RESUME being served, so that the next step fetches
and runs it (log 21). -/
def placeInstruction (nbits w : Nat) (s : State) : State :=
  { (s.grow (s.pc + 3)) with
    mem := (((s.mem.write s.pc (cellOfBits nbits w 0)).write (s.pc + 1) (cellOfBits nbits w 1)).write (s.pc + 2)
      (cellOfBits nbits w 2)).write (s.pc + 3) (cellOfBits nbits w 3)
    state := .running
    resuming := true }

end Sys2Proof.Machine
end

