-- ==== Sys2Proof/Machine/Loader.lean ====
section
/-! DEFINITION. LOAD: the program text, its errors, and reset (70_reset_and_hazards.md R200, R201). -/

namespace Sys2Proof.Machine

/-- The value of a decimal digit character "0" to "9". -/
def digitValue (c : Char) : Option Nat :=
  if 48 ≤ c.toNat ∧ c.toNat ≤ 57 then some (c.toNat - 48) else none

/-- The pieces between the separators `sep`; a text with none is one piece. -/
def splitAtChar (sep : Char) : List Char → List (List Char)
  | [] => [[]]
  | c :: rest =>
    if c = sep then [] :: splitAtChar sep rest
    else match splitAtChar sep rest with
      | [] => [[c]]
      | piece :: pieces => (c :: piece) :: pieces

/-- The number a run of digits spells after `acc`; leading zeros are allowed (R201). -/
def parseDigits (acc : Nat) : List Char → Option Nat
  | [] => some acc
  | c :: rest =>
    match digitValue c with
    | some d => parseDigits (acc * 10 + d) rest
    | none => none

/-- `digit+`: at least one digit (R201). -/
def parseNumber (cs : List Char) : Option Nat := if cs = [] then none else parseDigits 0 cs

/-- `cell ::= [ "-" ] digit+` (R201). -/
def parseCell (cs : List Char) : Option Int :=
  match cs with
  | [] => none
  | c :: rest => if c = '-' then (parseNumber rest).map fun n => -(n : Int) else (parseNumber cs).map fun n => (n : Int)

/-- Every piece as a cell's value; `none` if one does not match `cell`. -/
def parseCells : List (List Char) → Option (List Int)
  | [] => some []
  | piece :: rest =>
    match parseCell piece, parseCells rest with
    | some v, some vs => some (v :: vs)
    | _, _ => none

/-- The first half of `load` (R201): MALFORMED comes before RANGE, as the lower code. -/
def parseProgram (text : List Char) : Except LoadError (List Word) :=
  if text = [] then .ok []
  else match parseCells (splitAtChar ',' text) with
    | none => .error .malformed
    | some vs => if vs.all (fun v => decide (in64 v)) then .ok (vs.map Word.ofInt) else .error .range

/-- The codes of the load errors (R201). -/
def LoadError.code : LoadError → Nat
  | .malformed => 1
  | .range => 2
  | .tooLarge => 3

/-- `Reset(c_0 .. c_{n-1})` (R200): every field of 10_state.md R20 is set; nothing of the core survives. The parameters are
the build's, and the channel is not the core's. -/
def State.loaded (s : State) (image : List Word) : State :=
  { State.reset with
    params := s.params
    mem := Memory.ofImageAt 0 image
    memLen := image.length
    driver := s.driver
    responses := s.responses }

/-- The LOAD command with an image (R200, R201): TOO_LARGE leaves the core's state unchanged. -/
def loadImage (image : List Word) (s : State) : State :=
  if s.params.memLimit < image.length then s.respond (.loadError .tooLarge) else (s.loaded image).respond .ready

/-- The LOAD command with the program text (R201); a refused text leaves the core's state unchanged. -/
def loadText (text : List Char) (s : State) : State :=
  match parseProgram text with
  | .ok image => loadImage image s
  | .error e => s.respond (.loadError e)

end Sys2Proof.Machine
end

