-- ==== Sys2Proof/Machine/Protocol.lean ====
section
/-! DEFINITION. The resume protocol (40_execution_cycle.md R90 to R97) and the command channel (R102). -/

namespace Sys2Proof.Machine

/-- `Run()` begins (R91): the core is now serving a RESUME. Each step from here on runs one instruction until one emits. -/
def State.startRun (s : State) : State := { s with resuming := true }

/-- `CompleteInput(v)` (R92). -/
def completeInput (v : Word) (s : State) : Res Unit :=
  (memWrite (s.pendingTarget : Int) v s).bind fun _ s => .ok () { s with pc := s.pc + 2, state := .running }

/-- `resume(v_opt)` up to the start of `Run()` (R90), by the state, in the order of 60_exceptions.md R184. -/
def resumeCall (v : Option Word) (s : State) : State :=
  match s.state, v with
  | .faulted, _ => s.emit (.fault s.faultCode s.faultPc s.faultInfo)
  | .halted, _ => takeFault .alreadyHaltedError 0 s
  | .awaitingInput, none => s.emit (.needInput s.pc)
  | .awaitingInput, some v => ((completeInput v s).bind fun _ s => .ok () s.startRun).state
  | .running, none => s.startRun
  | .running, some v => takeFault .inputProtocolError v.toInt s

/-- The core accepts one command (R97, R102). -/
def acceptCommand (c : Command) (s : State) : State :=
  match c with
  | .load image => loadImage image s
  | .loadText text => loadText text s
  | .resume => resumeCall none s
  | .resumeWith v => resumeCall (some v) s

/-- The driver's turn: its next command is accepted; a driver with nothing more to send has stopped calling and the core
waits, its state unchanged (R100; 60_exceptions.md R194). Log 12. -/
def driverTurn (s : State) : State :=
  match s.driver with
  | [] => s
  | c :: rest => acceptCommand c { s with driver := rest }

/-- The channel seen from outside: a command sent while a RESUME has not responded, or while one is still waiting to be
accepted, is refused (R102; 93_implementation_defined.md U20). Log 13. -/
def submit (c : Command) (s : State) : Host.Outcome State Fault Refusal :=
  if s.resuming || !s.driver.isEmpty then .refused .commandWhileBusy else .next { s with driver := [c] }

end Sys2Proof.Machine
end

