-- ==== Sys2Proof/Machine/Step.lean ====
section
/-! DEFINITION. One step of the core and its driver (40_execution_cycle.md R85, R90, R91). -/

namespace Sys2Proof.Machine

/-- While a RESUME is being served the core is Running and a step is one instruction (R85, R91); otherwise it is the
driver's turn (R102). -/
def step (s : State) : Host.Outcome State Fault Refusal :=
  match s.resuming, s.state with
  | true, .running =>
    match fetchDecode s with
    | .ok i s' => exec i s'
    | .raised s' => .next s'
  | _, _ => .next (driverTurn s)

/-- The state with an instruction placed where the next step fetches it. -/
def State.withFetchWord (s : State) (nbits w : Nat) : State := placeInstruction nbits w s

end Sys2Proof.Machine
end

