-- ==== Sys2Proof/Machine/Assembler.lean ====
section
/-! DEFINITION. The assembler notation (30_encoding.md R74) and its pseudo-instructions (R75), from the source's
characters to cells and to the program text that LOAD takes. Blanks and label characters are the model's choice: log 19. -/

namespace Sys2Proof.Machine

/-- `e`: a signed decimal integer or a label (R74). -/
inductive AsmValue where
  | number (v : Int)
  | label (name : List Char)
  deriving DecidableEq, Repr

/-- `[e]`, `#e`, `[rb+e]` and `[rb-e]` (R74; 00_scope.md R14). -/
inductive AsmOperand where
  | position (e : AsmValue)
  | immediate (e : AsmValue)
  | rbPlus (e : AsmValue)
  | rbMinus (e : AsmValue)
  deriving DecidableEq, Repr

/-- What a line holds: an instruction by its opcode, data, or a pseudo-instruction (R74, R75). -/
inductive AsmItem where
  | instr (opcode : Nat) (operands : List AsmOperand)
  | data (values : List AsmValue)
  | jmp (t : AsmOperand)
  | mov (source target : AsmOperand)
  | nop
  | halt
  deriving DecidableEq, Repr

/-- A line, with the label it may carry (R74). -/
structure AsmLine where
  label : Option (List Char)
  item : AsmItem
  deriving DecidableEq, Repr

/-- The expansions of R75; any other line stands for itself. R75 has MOV with a destination `[d]` or `[rb+d]` only: MOV with an
Immediate destination expands by the same pattern, to a word the decoder refuses, DESIGN CHOICE (log 19). -/
def AsmItem.expand : AsmItem → AsmItem
  | .jmp t => .instr 5 [.immediate (.number 1), t]
  | .mov source target => .instr 1 [source, .immediate (.number 0), target]
  | .nop => .instr 6 [.immediate (.number 1), .immediate (.number 0)]
  | .halt => .instr 99 []
  | .instr opcode operands => .instr opcode operands
  | .data values => .data values

/-- The cells an expanded line emits: 1 and one for each operand, or one for each value. -/
def AsmItem.size : AsmItem → Nat
  | .instr _ operands => operands.length + 1
  | .data values => values.length
  | .jmp _ => 3
  | .mov _ _ => 4
  | .nop => 3
  | .halt => 1

/-- The address each label marks: that of the first cell its line emits (R74). -/
def labelAddresses : Nat → List AsmLine → List (List Char × Nat)
  | _, [] => []
  | a, l :: rest =>
    match l.label with
    | some name => (name, a) :: labelAddresses (a + l.item.size) rest
    | none => labelAddresses (a + l.item.size) rest

/-- The integer a value stands for; a label that marks no cell has none. -/
def AsmValue.resolve (labels : List (List Char × Nat)) : AsmValue → Option Int
  | .number v => some v
  | .label name => (labels.lookup name).map fun a => (a : Int)

/-- The mode digit an operand is written with. -/
def AsmOperand.mode : AsmOperand → Mode
  | .position _ => .position
  | .immediate _ => .immediate
  | .rbPlus _ => .relative
  | .rbMinus _ => .relative

/-- The raw operand cell an operand emits. -/
def AsmOperand.resolve (labels : List (List Char × Nat)) : AsmOperand → Option Int
  | .position e => e.resolve labels
  | .immediate e => e.resolve labels
  | .rbPlus e => e.resolve labels
  | .rbMinus e => (e.resolve labels).map fun v => -v

/-- The mode digits from the hundreds on: `100·m1 + 1000·m2 + 10000·m3`. -/
def modeDigits : Nat → List AsmOperand → Nat
  | _, [] => 0
  | weight, o :: rest => weight * o.mode.toDigit + modeDigits (10 * weight) rest

/-- The values of a list, all resolved. -/
def allSome {α : Type} : List (Option α) → Option (List α)
  | [] => some []
  | none :: _ => none
  | some v :: rest => (allSome rest).map fun vs => v :: vs

/-- The cells of one expanded line; `none` where a label is not defined or the operands are not the opcode's number. -/
def AsmItem.emit (labels : List (List Char × Nat)) : AsmItem → Option (List Int)
  | .instr opcode operands =>
    match opcodeTable opcode with
    | some row =>
      if row.operandCount = operands.length then
        (allSome (operands.map (·.resolve labels))).map fun vs => ((opcode + modeDigits 100 operands : Nat) : Int) :: vs
      else none
    | none => none
  | .data values => allSome (values.map (·.resolve labels))
  | .jmp _ => none
  | .mov _ _ => none
  | .nop => none
  | .halt => none

/-- The program's cells (R74); `none` where a value is no cell value. -/
def assemble (lines : List AsmLine) : Option (List Word) :=
  let labels := labelAddresses 0 lines
  match allSome (lines.map fun l => l.item.expand.emit labels) with
  | some pieces => if pieces.flatten.all (fun v => decide (in64 v)) then some (pieces.flatten.map Word.ofInt) else none
  | none => none

/-- The decimal digits of `n` before the text `tail`, given fuel for its digits. -/
def renderNat : Nat → Nat → List Char → List Char
  | 0, _, tail => tail
  | fuel + 1, n, tail =>
    if n < 10 then Char.ofNat (48 + n) :: tail else renderNat fuel (n / 10) (Char.ofNat (48 + n % 10) :: tail)

/-- A cell in decimal; INT64 needs at most 19 digits. -/
def renderCell (v : Word) : List Char :=
  if v.toInt < 0 then '-' :: renderNat 20 v.toInt.natAbs [] else renderNat 20 v.toInt.natAbs []

/-- The program text: the cells joined by commas (R74). -/
def renderProgram : List Word → List Char
  | [] => []
  | [v] => renderCell v
  | v :: rest => renderCell v ++ ',' :: renderProgram rest

/-! Source text. Lines end at a line feed, a comment starts with `;`, blanks are spaces and tabs and mean nothing but
the end of a mnemonic; anything else before the colon or in the place of a number is a label. -/

/-- Space and tab. -/
def isBlank (c : Char) : Bool := c = ' ' || c = '\t'

/-- The text without its blanks. -/
def dropBlanks (cs : List Char) : List Char := cs.filter fun c => !isBlank c

/-- The mnemonics of R62. -/
def mnemonicOpcode (name : List Char) : Option Nat :=
  [(['A', 'D', 'D'], 1),
   (['M', 'U', 'L', 'T', 'I', 'P', 'L', 'Y'], 2),
   (['I', 'N', 'P', 'U', 'T'], 3),
   (['O', 'U', 'T', 'P', 'U', 'T'], 4),
   (['J', 'U', 'M', 'P', '_', 'I', 'F', '_', 'T', 'R', 'U', 'E'], 5),
   (['J', 'U', 'M', 'P', '_', 'I', 'F', '_', 'F', 'A', 'L', 'S', 'E'], 6),
   (['L', 'E', 'S', 'S', '_', 'T', 'H', 'A', 'N'], 7),
   (['E', 'Q', 'U', 'A', 'L', 'S'], 8),
   (['S', 'E', 'T', '_', 'R', 'E', 'L', 'A', 'T', 'I', 'V', 'E', '_', 'B', 'A', 'S', 'E'], 9),
   (['T', 'E', 'R', 'M', 'I', 'N', 'A', 'T', 'E'], 99)].lookup name

/-- `e` (R74): a signed decimal integer, else a label; nothing is neither. -/
def parseAsmValue (cs : List Char) : Option AsmValue :=
  if cs = [] then none
  else match parseCell cs with
    | some v => some (.number v)
    | none => some (.label cs)

/-- An operand without blanks (R74). -/
def parseAsmOperand (cs : List Char) : Option AsmOperand :=
  match cs with
  | [] => none
  | c :: rest =>
    if c = '#' then (parseAsmValue rest).map .immediate
    else if c = '[' ∧ rest.getLast? = some ']' then
      match rest.dropLast with
      | 'r' :: 'b' :: '+' :: e => (parseAsmValue e).map .rbPlus
      | 'r' :: 'b' :: '-' :: e => (parseAsmValue e).map .rbMinus
      | e => (parseAsmValue e).map .position
    else none

/-- What stands after the label (R74, R75). R74's DATA has at least one value: a DATA line with none is accepted and emits no
cell, DESIGN CHOICE (log 19). -/
def parseAsmItem (cs : List Char) : Option AsmItem :=
  let body := cs.dropWhile isBlank
  let name := body.takeWhile fun c => !isBlank c
  let rest := dropBlanks (body.dropWhile fun c => !isBlank c)
  let parts := if rest = [] then [] else splitAtChar ',' rest
  if name = ['D', 'A', 'T', 'A'] then (allSome (parts.map parseAsmValue)).map .data
  else match allSome (parts.map parseAsmOperand) with
    | none => none
    | some operands =>
      match mnemonicOpcode name with
      | some opcode => some (.instr opcode operands)
      | none =>
        if name = ['J', 'M', 'P'] then (match operands with | [t] => some (.jmp t) | _ => none)
        else if name = ['M', 'O', 'V'] then (match operands with | [s, d] => some (.mov s d) | _ => none)
        else if name = ['N', 'O', 'P'] then (if operands = [] then some .nop else none)
        else if name = ['H', 'A', 'L', 'T'] then (if operands = [] then some .halt else none)
        else none

/-- One source line: no line at all where nothing but blanks and a comment stands (R74). -/
def parseAsmLine (cs : List Char) : Option (List AsmLine) :=
  let code := cs.takeWhile fun c => c != ';'
  if dropBlanks code = [] then some []
  else if ':' ∈ code then
    let name := dropBlanks (code.takeWhile fun c => c != ':')
    if name = [] then none
    else (parseAsmItem ((code.dropWhile fun c => c != ':').drop 1)).map fun item => [⟨some name, item⟩]
  else (parseAsmItem code).map fun item => [⟨none, item⟩]

/-- A whole source text. -/
def parseAsm (text : List Char) : Option (List AsmLine) :=
  (allSome ((splitAtChar '\n' text).map parseAsmLine)).map List.flatten

/-- From source text to cells (R74). -/
def assembleText (text : List Char) : Option (List Word) :=
  match parseAsm text with
  | some lines => assemble lines
  | none => none

end Sys2Proof.Machine
end

