-- ==== Sys2Proof/Machine/Registers.lean ====
section
/-! DEFINITION. The registers as a hardware build holds them, with their widths and encodings (10_state.md R25, R32). -/

namespace Sys2Proof.Machine

/-- The 2-bit encoding of the execution state (R25). -/
def ExecState.code : ExecState → BitVec 2
  | .running => 0
  | .awaitingInput => 1
  | .halted => 2
  | .faulted => 3

/-- The 4-bit cause codes (60_exceptions.md R170). -/
def FaultCode.code : FaultCode → BitVec 4
  | .noFault => 0
  | .addressError => 1
  | .unknownOpcodeError => 2
  | .invalidWriteModeError => 3
  | .alreadyHaltedError => 4
  | .unknownModeError => 5
  | .overflowError => 6
  | .capacityError => 7
  | .inputProtocolError => 8

/-- The register table of R32. -/
structure RegisterBits where
  pc : BitVec 64
  rb : BitVec 64
  state : BitVec 2
  halted : BitVec 1
  pendingTarget : BitVec 64
  faultCode : BitVec 4
  faultPc : BitVec 64
  faultInfo : BitVec 65
  memLen : BitVec 64
  deriving DecidableEq, Repr

/-- The bits of a state's registers (R32). -/
def State.registerBits (s : State) : RegisterBits where
  pc := BitVec.ofNat 64 s.pc
  rb := s.rb
  state := s.state.code
  halted := BitVec.ofBool s.halted
  pendingTarget := BitVec.ofNat 64 s.pendingTarget
  faultCode := s.faultCode.code
  faultPc := BitVec.ofNat 64 s.faultPc
  faultInfo := BitVec.ofInt 65 s.faultInfo
  memLen := BitVec.ofNat 64 s.memLen

end Sys2Proof.Machine
end

