-- ==== Sys2Proof/Machine/Resume.lean ====
section
/-! DEFINITION. A driver's call as one function with fuel (40_execution_cycle.md R90, R91, R99), and the driver of
70_reset_and_hazards.md R203. Fuel that runs out is `none`, no result: it is never an end state of the core (R99). -/

namespace Sys2Proof.Machine

/-- `Run()` (R91): step until the RESUME has responded. -/
def serve : Nat → State → Option State
  | 0, s => if s.resuming then none else some s
  | fuel + 1, s =>
    if s.resuming then
      match step s with
      | .next s' => serve fuel s'
      | .fault _ => none
      | .refused _ => none
    else some s

/-- One driver call: the response it returns, and the state it leaves (R90, R102). -/
def call (fuel : Nat) (c : Command) (s : State) : Option (Response × State) :=
  match serve fuel (acceptCommand c s) with
  | none => none
  | some s' => s'.responses.getLast?.map fun r => (r, s')

/-- What the driver of R203 does with a response: the next command and the inputs left, or `none` where it stops. R203 says
nothing of LOAD_ERROR, and nothing of a NeedInput for which the driver has no value: it stops there too, DESIGN CHOICE
(log 25). -/
def driverAnswer (inputs : List Word) : Response → Option (Command × List Word)
  | .ready => some (.resume, inputs)
  | .loadError _ => none
  | .needInput _ =>
    match inputs with
    | [] => none
    | v :: rest => some (.resumeWith v, rest)
  | .output _ => some (.resume, inputs)
  | .halted _ => none
  | .fault _ _ _ => none

/-- The driver of R203 from its first command on, for at most `calls` calls of `fuel` steps each. -/
def converse (fuel : Nat) : Nat → Command → List Word → State → Option State
  | 0, _, _, _ => none
  | calls + 1, c, inputs, s =>
    match call fuel c s with
    | none => none
    | some (r, s') =>
      match driverAnswer inputs r with
      | none => some s'
      | some (c', inputs') => converse fuel calls c' inputs' s'

end Sys2Proof.Machine
end

