-- ==== Sys2Proof/Machine/Runs.lean ====
section
/-! DEFINITION. The end of a run and its results, read from the responses the core has sent (46_terminate.md R161). -/

namespace Sys2Proof.Machine

/-- The results of a run that has ended (R161): the Output values before its end, in order, with the snapshot of Halted or
the fault record. -/
inductive RunResult where
  | well (outputs : List Word) (snapshot : Snapshot)
  | badly (outputs : List Word) (code : FaultCode) (pc : Nat) (info : Int)
  deriving DecidableEq, Repr

/-- The responses of the current run, which began at the last LOAD that was accepted and answered READY (R161); the whole
history where there was none. -/
def sinceLoad (history : List Response) : List Response :=
  history.foldl (fun run r => if r = .ready then [] else run ++ [r]) []

/-- The result the responses of a run give, after the Output values `outputs`: its FIRST Halted or Fault ends it. A resume
after Halted, a misuse, returns a Fault as well, and R161's words would fit both ends: the model takes the first, DESIGN
CHOICE (log 24). A refused LOAD changes no core and ends no run (70_reset_and_hazards.md R201). -/
def resultOf (outputs : List Word) : List Response → Option RunResult
  | [] => none
  | .halted p :: _ => some (.well outputs p)
  | .fault code pc info :: _ => some (.badly outputs code pc info)
  | .output v :: rest => resultOf (outputs ++ [v]) rest
  | .needInput _ :: rest => resultOf outputs rest
  | .loadError _ :: rest => resultOf outputs rest
  | .ready :: rest => resultOf outputs rest

/-- The results of the current run (R161); none while it has not ended. A run that waits for input, that never responds, or
that its driver left has no end. -/
def State.runResult (s : State) : Option RunResult := resultOf [] (sinceLoad s.responses)

end Sys2Proof.Machine
end

