-- ==== Sys2Proof/Safety.lean ====
section
/-! DEFINITION. What every reachable state satisfies (10_state.md R33) and how a run ends (46_terminate.md R161). -/

namespace Sys2Proof.Machine

/-- The invariant: 10_state.md R33 (a) to (f), the ranges of R20 and R31, memory's canonical form, where
pc stands in Halted, and that a RESUME is being served only in Running. -/
structure State.Inv (s : State) : Prop where
  paramsWf : s.params.wf
  /-- Memory is canonical, so equal memories are equal data. -/
  memWf : s.mem.wf
  /-- Only the first `mem_len` cells exist. -/
  cellsExist : ∀ c ∈ s.mem, c.1 < s.memLen
  /-- R33 (b). -/
  memLenLe : s.memLen ≤ s.params.memLimit
  /-- R33 (a), R22. -/
  pcLe : s.pc ≤ 9223372036854775808
  /-- R20. -/
  pendingLt : s.pendingTarget < s.params.memLimit
  /-- R33 (c). -/
  haltedState : s.state = .halted → s.halted = true
  /-- R33 (d). -/
  haltedFlag : s.halted = true → s.state = .halted ∨ s.state = .faulted
  /-- R33 (e): the suspended INPUT is at pc, with its operand cell. -/
  awaiting : s.state = .awaitingInput →
    0 ≤ (s.cell s.pc).toInt ∧ (s.cell s.pc).toInt % 100 = 3 ∧ s.pc + 2 ≤ s.memLen
  /-- A Halted core's pc stays at its TERMINATE (46_terminate.md R160). -/
  terminated : s.state = .halted → 0 ≤ (s.cell s.pc).toInt ∧ (s.cell s.pc).toInt % 100 = 99 ∧ s.pc < s.memLen
  /-- R33 (f). -/
  faultedIff : s.state = .faulted ↔ s.faultCode ≠ .noFault
  /-- R31. -/
  faultPcLe : s.faultPc ≤ 9223372036854775808
  /-- R31. -/
  faultInfoRange : -18446744073709551616 ≤ s.faultInfo ∧ s.faultInfo ≤ 18446744073709551614
  /-- R90, R91: `Run()` runs in Running. -/
  resumingRunning : s.resuming = true → s.state = .running

/-- The core is serving a RESUME and its next word exists: the next step fetches the word at pc (40_execution_cycle.md
R85, R91). -/
abbrev State.Fetching (s : State) : Prop := s.resuming = true ∧ s.state = .running ∧ s.pc < s.params.memLimit

/-- The word at pc. -/
abbrev State.word (s : State) : Word := s.cell s.pc

/-- `s'` is what a fault taken during a step from `s` leaves: the fault's entry, and memory grown by the reads before it,
and nothing else (60_exceptions.md R180, R181). -/
def PreciseFault (s s' : State) : Prop :=
  ∃ f info len, f ≠ .noFault ∧ s.memLen ≤ len ∧ s' = takeFault f info { s with memLen := len }

/-- The current run ended well: a resume returned Halted (R161). A misused resume after it does not change that, which is the
model's choice (log 24). -/
def State.EndedWell (s : State) : Prop := ∃ outputs p, s.runResult = some (.well outputs p)

/-- The current run ended badly: a resume returned a Fault, and none had returned Halted (R161; log 24). -/
def State.EndedBadly (s : State) : Prop := ∃ outputs code pc info, s.runResult = some (.badly outputs code pc info)

/-- The core has stopped for good until a LOAD (60_exceptions.md R194). -/
def State.Stopped (s : State) : Prop := s.state = .halted ∨ s.state = .faulted

/-- The states a run passes through: from `s`, any number of steps (that the core never stops with the host's fault or
refusal is a theorem, not a condition). -/
inductive Reaches : State → State → Prop where
  | refl (s : State) : Reaches s s
  | tail (s t u : State) : Reaches s t → step t = .next u → Reaches s u

end Sys2Proof.Machine
end

