-- ==== Sys2Proof/Certificates/Slice0/Obligations.lean ====
section
/-! DEFINITION. The statements for the provers, each with the rules of spec/ it rests on. -/

open Sys2Proof Sys2Proof.Machine

/-! Encoding and decoder. -/

/-- The words of 30_encoding.md section 6, and one of each other opcode, decode as the spec reads them. -/
def Obligations.DecodeSpecWords : Prop :=
  decode false 1002 = .ok (.multiply .position .immediate .position 0) ∧
  decode false 1102 = .ok (.multiply .immediate .immediate .position 0) ∧
  decode false 109 = .ok (.setRelativeBase .immediate 0) ∧
  decode false 204 = .ok (.output .relative 0) ∧
  decode false 1001 = .ok (.add .position .immediate .position 0) ∧
  decode false 1008 = .ok (.equals .position .immediate .position 0) ∧
  decode false 1006 = .ok (.jumpIfFalse .position .immediate 0) ∧
  decode false 203 = .ok (.input .relative 0) ∧
  decode false 2105 = .ok (.jumpIfTrue .immediate .relative 0) ∧
  decode false 21207 = .ok (.lessThan .relative .immediate .relative 0) ∧
  decode true 99 = .ok (.terminate 0)

/-- Decoding the word of a well-formed instruction gives it back, every mode and every excess digit. -/
def Obligations.DecodeEncodeRoundTrip : Prop :=
  ∀ (strict : Bool) (i : Instr), i.wellFormed strict = true → decode strict (encode i) = .ok i

/-- A word that decodes is the word of the instruction it decodes to, and that instruction is well formed. -/
def Obligations.EncodeDecodeRoundTrip : Prop :=
  ∀ (strict : Bool) (w : Word) (i : Instr), decode strict w = .ok i → i.wellFormed strict = true ∧ encode i = w

/-- 30_encoding.md R68: a negative word raises UnknownOpcodeError (code 2) with the word (the spec's decision D4). -/
def Obligations.NegativeWordFaults : Prop :=
  ∀ s : State, s.Fetching → s.word.toInt < 0 →
    (∀ strict, decode strict s.word = .error .unknownOpcode) ∧
    step s = .next (takeFault .unknownOpcodeError s.word.toInt (s.grow s.pc)) ∧
    FaultCode.unknownOpcodeError.code = 2

/-- 30_encoding.md R69: a word whose opcode is not in the table raises UnknownOpcodeError (code 2) with the word; 0 is one. -/
def Obligations.UnlistedOpcodeFaults : Prop :=
  (∀ s : State, s.Fetching → 0 ≤ s.word.toInt → opcodeTable (s.word.toNat % 100) = none →
    (∀ strict, decode strict s.word = .error .unknownOpcode) ∧
    step s = .next (takeFault .unknownOpcodeError s.word.toInt (s.grow s.pc))) ∧
  FaultCode.unknownOpcodeError.code = 2 ∧ opcodeTable ((0 : Word).toNat % 100) = none

/-- 30_encoding.md R65: a used mode digit of 3 to 9 raises UnknownModeError (code 5) with the word (the spec's decision
D5). -/
def Obligations.BadModeDigitFaults : Prop :=
  ∀ (s : State) (row : OpcodeRow) (k : Nat), s.Fetching → 0 ≤ s.word.toInt →
    opcodeTable (s.word.toNat % 100) = some row → 1 ≤ k → k ≤ row.operandCount → 3 ≤ digit (k + 1) s.word.toNat →
    (∀ strict, decode strict s.word = .error .unknownMode) ∧
    step s = .next (takeFault .unknownModeError s.word.toInt (s.grow s.pc)) ∧
    FaultCode.unknownModeError.code = 5

/-- 30_encoding.md R66: unused digits are ignored by default and refused under STRICT_MODE_DIGITS (the
spec's decision D6). -/
def Obligations.UnusedDigitsIgnoredOrRefused : Prop :=
  (∀ (w : Word) (row : OpcodeRow), 0 ≤ w.toInt → opcodeTable (w.toNat % 100) = some row →
    (∀ i', decode false (BitVec.ofNat 64 (w.toNat % 10 ^ (row.operandCount + 2))) = .ok i' →
      ∃ i, decode false w = .ok i ∧ i.opcode = i'.opcode ∧ i.modes = i'.modes) ∧
    (∀ e, decode false (BitVec.ofNat 64 (w.toNat % 10 ^ (row.operandCount + 2))) = .error e → decode false w = .error e)) ∧
  (∀ (s : State) (row : OpcodeRow), s.Fetching → s.params.strictModeDigits = true → 0 ≤ s.word.toInt →
    opcodeTable (s.word.toNat % 100) = some row →
    s.word.toNat / 10 ^ (row.operandCount + 2) ≠ 0 →
    step s = .next (takeFault .unknownModeError s.word.toInt (s.grow s.pc))) ∧
  decode false 199 = .ok (.terminate 1) ∧ decode false 100099 = .ok (.terminate 1000) ∧
  Params.default.strictModeDigits = false

/-- A write operand in Immediate mode, in a word that passes the earlier checks, raises InvalidWriteModeError (code 3) with
the word, before any operand is fetched (30_encoding.md sections 3 and 5; 60_exceptions.md sections 1 and 3). -/
def Obligations.ImmediateTargetFaults : Prop :=
  ∀ (s : State) (row : OpcodeRow) (k : Nat), s.Fetching → 0 ≤ s.word.toInt →
    opcodeTable (s.word.toNat % 100) = some row → row.writeOperand = some k → digit (k + 1) s.word.toNat = 1 →
    (∀ j, 1 ≤ j → j ≤ row.operandCount → digit (j + 1) s.word.toNat ≤ 2) →
    (s.params.strictModeDigits = true → s.word.toNat / 10 ^ (row.operandCount + 2) = 0) →
    step s = .next (takeFault .invalidWriteModeError s.word.toInt (s.grow s.pc)) ∧
    FaultCode.invalidWriteModeError.code = 3

/-- Under STRICT_MODE_DIGITS exactly 99 words are legal, so many for each opcode; without it each also stands for the words
with excess digits above its own (30_encoding.md section 5; the spec marks the count as derived from its other rules). -/
def Obligations.StrictLegalWordsAre99 : Prop :=
  (∃ legal : List Word, legal.Nodup ∧ legal.length = 99 ∧ (∀ w, w ∈ legal ↔ ∃ i, decode true w = .ok i) ∧
    (∀ op, (legal.filter fun w => decide (w.toNat % 100 = op)).length =
      if op = 1 ∨ op = 2 ∨ op = 7 ∨ op = 8 then 18 else if op = 3 then 2 else if op = 4 ∨ op = 9 then 3
      else if op = 5 ∨ op = 6 then 9 else if op = 99 then 1 else 0) ∧
    (∀ w : Nat, w ∈ [3, 203, 4, 104, 204, 9, 109, 209, 99] → BitVec.ofNat 64 w ∈ legal)) ∧
  (∀ (w : Word) (i : Instr) (k : Nat), decode true w = .ok i → in64 (w.toInt + k * 10 ^ (i.operandCount + 2)) →
    ∃ i', decode false (Word.ofInt (w.toInt + k * 10 ^ (i.operandCount + 2))) = .ok i' ∧
      i'.opcode = i.opcode ∧ i'.modes = i.modes ∧ i'.excess = k)

/-- Where the decoder accepts, its output ports carry the opcode, the operand count, the length and the mode digits of the
word, with 0 in the mode fields it does not use; where it rejects, `fault_code` is the cause code of its error
(30_encoding.md section 5; 60_exceptions.md section 1). -/
def Obligations.DecoderPortsReadTheWord : Prop :=
  (∀ (strict : Bool) (w : Word) (p : DecoderPorts), decoderPorts strict w = .ok p →
    p.kind.toNat = w.toNat % 100 ∧
    opcodeTable (w.toNat % 100) =
      some ⟨p.n.toNat, if p.writeIndex = 0 then none else some p.writeIndex.toNat⟩ ∧
    p.length.toNat = p.n.toNat + 1 ∧
    p.mode1.toNat = (if 1 ≤ p.n.toNat then digit 2 w.toNat else 0) ∧
    p.mode2.toNat = (if 2 ≤ p.n.toNat then digit 3 w.toNat else 0) ∧
    p.mode3.toNat = (if 3 ≤ p.n.toNat then digit 4 w.toNat else 0)) ∧
  (∀ (strict : Bool) (w : Word),
    ((∃ p, decoderPorts strict w = .ok p) ↔ ∃ i, decode strict w = .ok i) ∧
    (decoderPorts strict w = .error 2 ↔ decode strict w = .error .unknownOpcode) ∧
    (decoderPorts strict w = .error 3 ↔ decode strict w = .error .invalidWriteMode) ∧
    (decoderPorts strict w = .error 5 ↔ decode strict w = .error .unknownMode))

/-! Memory. -/

/-- 20_memory.md R41: a negative address raises AddressError, one at or above MEM_LIMIT raises CapacityError, each with the
address; by default only an address above INT64 does the second. -/
def Obligations.AddrCheckOutcomes : Prop :=
  ∀ (s : State) (a : Int),
    (a < 0 → addrCheck a s = raise .addressError a s) ∧
    (0 ≤ a → (s.params.memLimit : Int) ≤ a → addrCheck a s = raise .capacityError a s) ∧
    (0 ≤ a → a < s.params.memLimit → addrCheck a s = .ok a.toNat s) ∧
    (s.params = Params.default → 0 ≤ a → (addrCheck a s = raise .capacityError a s ↔ 9223372036854775807 < a))

/-- 20_memory.md R42: a read of an address that fails the checks faults; any other returns the cell, grows memory with
zeros up to it and changes nothing else. A second read of it returns the same and grows nothing further. -/
def Obligations.ReadReturnsCellAndGrows : Prop :=
  (∀ (s : State) (a : Int),
    (∀ f, addressFault s.params.memLimit a = some f → memRead a s = raise f a s) ∧
    (addressFault s.params.memLimit a = none →
      memRead a s = .ok (s.cell a.toNat) { s with memLen := max s.memLen (a.toNat + 1) } ∧
      ((∀ c ∈ s.mem, c.1 < s.memLen) → s.memLen ≤ a.toNat → s.cell a.toNat = 0))) ∧
  (∀ (s t : State) (a : Int) (v : Word), memRead a s = .ok v t → memRead a t = .ok v t)

/-- 20_memory.md R43: a write to an address that fails the checks faults; any other stores the value in its cell, grows
memory with zeros up to it, and leaves every other cell and every register alone. -/
def Obligations.WriteStoresOneCell : Prop :=
  ∀ (s : State) (a : Int) (v : Word),
    (∀ f, addressFault s.params.memLimit a = some f → memWrite a v s = raise f a s) ∧
    (addressFault s.params.memLimit a = none →
      ∃ m, memWrite a v s = .ok () { s with mem := m, memLen := max s.memLen (a.toNat + 1) } ∧
        m.read a.toNat = v ∧ (∀ b, b ≠ a.toNat → m.read b = s.cell b) ∧
        ((∀ c ∈ s.mem, c.1 < s.memLen) → ∀ b, s.memLen ≤ b → b ≠ a.toNat → m.read b = 0))

/-- A write keeps the canonical form of memory, and two canonical memories that read the same are the same data
(the model's representation, log 2 and log 3). -/
def Obligations.CanonicalMemoryIsUnique : Prop :=
  (∀ (m : Memory) (a : Nat) (v : Word), m.wf → (m.write a v).wf) ∧
  (∀ m m' : Memory, m.wf → m'.wf → (∀ a, m.read a = m'.read a) → m = m')

/-- A snapshot is the sequence of all mem_len cells in address order (20_memory.md section 2). -/
def Obligations.SnapshotListsEveryCell : Prop :=
  ∀ s : State, s.snapshot.toList.length = s.memLen ∧
    ∀ a, a < s.memLen → s.snapshot.toList[a]? = some (s.cell a)

/-! One step. -/

/-- Where the word at pc decodes, a step is that instruction's meaning, on memory grown to hold the word. -/
def Obligations.StepRunsDecodedInstruction : Prop :=
  ∀ (s : State) (i : Instr), s.Fetching → decode s.params.strictModeDigits s.word = .ok i →
    step s = exec i (s.grow s.pc)

/-- Where the word at pc does not exist, the fetch raises CapacityError and nothing grows (20_memory.md section 2;
60_exceptions.md section 3). -/
def Obligations.FetchBeyondLimitFaults : Prop :=
  ∀ s : State, s.resuming = true → s.state = .running → s.params.memLimit ≤ s.pc →
    step s = .next (takeFault .capacityError s.pc s)

/-! The instructions' own effects. Raw operands, operand values, targets and lengths are those of the state the
instruction starts in; each is the value after the reads before it, since reads change `mem_len` only. -/

/-- ADD stores the exact sum, advances pc by 4 and changes nothing else but `mem_len` (41_arithmetic.md section 2). -/
def Obligations.AddStoresSum : Prop :=
  ∀ (m1 m2 m3 : Mode) (x t : Nat) (s : State), s.rawsExist 3 → s.reachable m1 1 → s.reachable m2 2 →
    s.target m3 3 = some t → in64 ((s.operand m1 1).toInt + (s.operand m2 2).toInt) →
    ∃ r : Word, r.toInt = (s.operand m1 1).toInt + (s.operand m2 2).toInt ∧
      exec (.add m1 m2 m3 x) s =
        .next { s with mem := s.mem.write t r, memLen := max (s.lenReads 3 m1 m2) (t + 1), pc := s.pc + 4 }

/-- MULTIPLY stores the exact product, advances pc by 4 and changes nothing else but `mem_len` (41_arithmetic.md section 2). -/
def Obligations.MultiplyStoresProduct : Prop :=
  ∀ (m1 m2 m3 : Mode) (x t : Nat) (s : State), s.rawsExist 3 → s.reachable m1 1 → s.reachable m2 2 →
    s.target m3 3 = some t → in64 ((s.operand m1 1).toInt * (s.operand m2 2).toInt) →
    ∃ r : Word, r.toInt = (s.operand m1 1).toInt * (s.operand m2 2).toInt ∧
      exec (.multiply m1 m2 m3 x) s =
        .next { s with mem := s.mem.write t r, memLen := max (s.lenReads 3 m1 m2) (t + 1), pc := s.pc + 4 }

/-- LESS_THAN stores 1 or 0 by the signed comparison (44_compare.md). -/
def Obligations.LessThanStoresComparison : Prop :=
  ∀ (m1 m2 m3 : Mode) (x t : Nat) (s : State), s.rawsExist 3 → s.reachable m1 1 → s.reachable m2 2 →
    s.target m3 3 = some t →
    exec (.lessThan m1 m2 m3 x) s =
      .next { s with
        mem := s.mem.write t (if (s.operand m1 1).toInt < (s.operand m2 2).toInt then 1 else 0)
        memLen := max (s.lenReads 3 m1 m2) (t + 1)
        pc := s.pc + 4 }

/-- EQUALS stores 1 or 0 by the comparison (44_compare.md). -/
def Obligations.EqualsStoresComparison : Prop :=
  ∀ (m1 m2 m3 : Mode) (x t : Nat) (s : State), s.rawsExist 3 → s.reachable m1 1 → s.reachable m2 2 →
    s.target m3 3 = some t →
    exec (.equals m1 m2 m3 x) s =
      .next { s with
        mem := s.mem.write t (if s.operand m1 1 = s.operand m2 2 then 1 else 0)
        memLen := max (s.lenReads 3 m1 m2) (t + 1)
        pc := s.pc + 4 }

/-- INPUT latches its checked target, suspends and asks the driver; pc, the cells and the target's cell are untouched, and
memory grows for the raw operand only (42_io.md). -/
def Obligations.InputSuspends : Prop :=
  ∀ (m1 : Mode) (x t : Nat) (s : State), s.rawsExist 1 → s.target m1 1 = some t →
    exec (.input m1 x) s =
      .next { s with
        memLen := s.lenRaws 1
        pendingTarget := t
        state := .awaitingInput
        resuming := false
        responses := s.responses ++ [.needInput s.pc] }

/-- OUTPUT advances pc by 2 and emits its operand; the core stays as it was (42_io.md). -/
def Obligations.OutputEmitsOperand : Prop :=
  ∀ (m1 : Mode) (x : Nat) (s : State), s.rawsExist 1 → s.reachable m1 1 →
    exec (.output m1 x) s =
      .next { s with
        memLen := s.lenF1R m1
        pc := s.pc + 2
        resuming := false
        responses := s.responses ++ [.output (s.operand m1 1)] }

/-- JUMP_IF_TRUE jumps to its second operand where the first is not 0, and else advances by 3; an untaken jump does not
check its target (43_jumps.md). -/
def Obligations.JumpIfTrueSetsPc : Prop :=
  ∀ (m1 m2 : Mode) (x : Nat) (s : State), s.rawsExist 2 → s.reachable m1 1 → s.reachable m2 2 →
    (s.operand m1 1 = 0 →
      exec (.jumpIfTrue m1 m2 x) s = .next { s with memLen := s.lenReads 2 m1 m2, pc := s.pc + 3 }) ∧
    (s.operand m1 1 ≠ 0 → 0 ≤ (s.operand m2 2).toInt →
      exec (.jumpIfTrue m1 m2 x) s =
        .next { s with memLen := s.lenReads 2 m1 m2, pc := (s.operand m2 2).toInt.toNat })

/-- JUMP_IF_FALSE jumps to its second operand where the first is 0, and else advances by 3 (43_jumps.md). -/
def Obligations.JumpIfFalseSetsPc : Prop :=
  ∀ (m1 m2 : Mode) (x : Nat) (s : State), s.rawsExist 2 → s.reachable m1 1 → s.reachable m2 2 →
    (s.operand m1 1 ≠ 0 →
      exec (.jumpIfFalse m1 m2 x) s = .next { s with memLen := s.lenReads 2 m1 m2, pc := s.pc + 3 }) ∧
    (s.operand m1 1 = 0 → 0 ≤ (s.operand m2 2).toInt →
      exec (.jumpIfFalse m1 m2 x) s =
        .next { s with memLen := s.lenReads 2 m1 m2, pc := (s.operand m2 2).toInt.toNat })

/-- SET_RELATIVE_BASE adds its operand, resolved with the old rb, to rb (45_relative_base.md). -/
def Obligations.SetRelativeBaseAdds : Prop :=
  ∀ (m1 : Mode) (x : Nat) (s : State), s.rawsExist 1 → s.reachable m1 1 →
    in64 (s.rb.toInt + (s.operand m1 1).toInt) →
    ∃ r : Word, r.toInt = s.rb.toInt + (s.operand m1 1).toInt ∧
      exec (.setRelativeBase m1 x) s = .next { s with memLen := s.lenF1R m1, rb := r, pc := s.pc + 2 }

/-- TERMINATE halts and emits the snapshot of memory; pc stays (46_terminate.md). -/
def Obligations.TerminateHalts : Prop :=
  ∀ (x : Nat) (s : State),
    exec (.terminate x) s =
      .next { s with
        halted := true
        state := .halted
        resuming := false
        responses := s.responses ++ [.halted ⟨s.memLen, s.mem⟩] }

/-! Faults of a step. -/

/-- 41_arithmetic.md R111: a sum or product outside INT64 raises OverflowError (code 6) with the instruction word; nothing
is written and pc does not advance (the spec's decision D1). -/
def Obligations.ArithmeticOverflowFaults : Prop :=
  ∀ (m1 m2 m3 : Mode) (x t : Nat) (s : State), s.Fetching → s.rawsExist 3 → s.reachable m1 1 → s.reachable m2 2 →
    s.target m3 3 = some t →
    ((decode s.params.strictModeDigits s.word = .ok (.add m1 m2 m3 x) ∧
        ¬ in64 ((s.operand m1 1).toInt + (s.operand m2 2).toInt)) ∨
      (decode s.params.strictModeDigits s.word = .ok (.multiply m1 m2 m3 x) ∧
        ¬ in64 ((s.operand m1 1).toInt * (s.operand m2 2).toInt))) →
    step s = .next (takeFault .overflowError s.word.toInt { s with memLen := s.lenReads 3 m1 m2 }) ∧
    FaultCode.overflowError.code = 6

/-- A relative base that would leave INT64 raises OverflowError with the instruction word and leaves rb
(45_relative_base.md). -/
def Obligations.RelativeBaseOverflowFaults : Prop :=
  ∀ (m1 : Mode) (x : Nat) (s : State), s.Fetching → s.rawsExist 1 → s.reachable m1 1 →
    decode s.params.strictModeDigits s.word = .ok (.setRelativeBase m1 x) →
    ¬ in64 (s.rb.toInt + (s.operand m1 1).toInt) →
    step s = .next (takeFault .overflowError s.word.toInt { s with memLen := s.lenF1R m1 })

/-- 43_jumps.md R132: a taken jump to a negative target faults at the jump with the target, and pc stays; a target at or
above MEM_LIMIT is not checked here, and the next fetch raises CapacityError for it (the spec's decision D9). -/
def Obligations.JumpTargetChecks : Prop :=
  (∀ (m1 m2 : Mode) (x : Nat) (s : State), s.rawsExist 2 → s.reachable m1 1 → s.reachable m2 2 →
    (s.operand m2 2).toInt < 0 →
    (s.operand m1 1 ≠ 0 → exec (.jumpIfTrue m1 m2 x) s =
      .next (takeFault .addressError (s.operand m2 2).toInt { s with memLen := s.lenReads 2 m1 m2 })) ∧
    (s.operand m1 1 = 0 → exec (.jumpIfFalse m1 m2 x) s =
      .next (takeFault .addressError (s.operand m2 2).toInt { s with memLen := s.lenReads 2 m1 m2 }))) ∧
  (∀ (t : Word) (s : State), 0 ≤ t.toInt → jumpTo t s = .ok () { s with pc := t.toInt.toNat }) ∧
  (∀ (t : Word) (s : State), s.resuming = true → s.state = .running → (s.params.memLimit : Int) ≤ t.toInt →
    step { s with pc := t.toInt.toNat } = .next (takeFault .capacityError t.toInt { s with pc := t.toInt.toNat }))

/-- Raw operands are fetched in order before any operand is resolved: the first that lies at or above MEM_LIMIT is the
fault, with its address, and memory has grown for the cells before it (60_exceptions.md section 3). -/
def Obligations.RawOperandFetchFaultsFirst : Prop :=
  ∀ (i : Instr) (s : State) (k : Nat), 1 ≤ k → k ≤ i.operandCount → s.pc + k = s.params.memLimit →
    exec i s = .next (takeFault .capacityError ((s.pc + k : Nat) : Int)
      { s with memLen := if k = 1 then s.memLen else max s.memLen (s.pc + k) })

/-- Operand 1's address is checked before operand 2 is resolved, and operand 2's before the target: the first bad address
is the fault (60_exceptions.md section 3). -/
def Obligations.OperandFaultsInOrder : Prop :=
  ∀ (i : Instr) (s : State) (a : Int) (f : FaultCode), s.rawsExist i.operandCount →
    (∀ m1 m2 m3 : Mode, i.modes = (m1, m2, m3) →
      (i.writeOperand ≠ some 1 → 1 ≤ i.operandCount → operandAddr m1 s.rb (s.raw 1) = some a →
        addressFault s.params.memLimit a = some f →
        exec i s = .next (takeFault f a { s with memLen := s.lenRaws i.operandCount })) ∧
      (2 ≤ i.operandCount → s.reachable m1 1 → operandAddr m2 s.rb (s.raw 2) = some a →
        addressFault s.params.memLimit a = some f →
        exec i s = .next (takeFault f a { s with memLen := max (s.lenRaws i.operandCount) (s.reach m1 1) })) ∧
      (i.operandCount = 3 → s.reachable m1 1 → s.reachable m2 2 → operandAddr m3 s.rb (s.raw 3) = some a →
        addressFault s.params.memLimit a = some f →
        exec i s = .next (takeFault f a { s with memLen := s.lenReads 3 m1 m2 })) ∧
      (i.writeOperand = some 1 → operandAddr m1 s.rb (s.raw 1) = some a →
        addressFault s.params.memLimit a = some f →
        exec i s = .next (takeFault f a { s with memLen := s.lenRaws 1 })))

/-- A fault taken in a step leaves pc, rb, the cells and `halted`, emits no other event, and of what the step did keeps only
memory's growth; a fault of the resume protocol changes only the record and `state`, and answers its command
(60_exceptions.md section 2). -/
def Obligations.FaultsArePrecise : Prop :=
  (∀ s s' : State, s.resuming = true → s.state = .running → step s = .next s' → s'.state = .faulted → PreciseFault s s') ∧
  (∀ (s s' : State) (c : Command) (rest : List Command), s.Inv → s.resuming = false → s.state ≠ .faulted →
    s.driver = c :: rest → (c = .resume ∨ ∃ v, c = .resumeWith v) → step s = .next s' → s'.state = .faulted →
    ∃ f info, f ≠ .noFault ∧ s' = takeFault f info { s with driver := rest })

/-! Frames: what an instruction leaves alone, whether it completes or faults. -/

/-- ADD, MULTIPLY, LESS_THAN and EQUALS change no cell but the one their third operand addresses, and no register but pc,
unless they fault; a fault is precise (40_execution_cycle.md section 2). -/
def Obligations.StoringInstructionsFrame : Prop :=
  ∀ (m1 m2 m3 : Mode) (x : Nat) (i : Instr) (s s' : State),
    i ∈ [Instr.add m1 m2 m3 x, .multiply m1 m2 m3 x, .lessThan m1 m2 m3 x, .equals m1 m2 m3 x] → exec i s = .next s' →
    (∀ a, operandAddr m3 s.rb (s.raw 3) = some a → ∀ c : Nat, (c : Int) ≠ a → s'.cell c = s.cell c) ∧
    (operandAddr m3 s.rb (s.raw 3) = none → ∀ c, s'.cell c = s.cell c) ∧
    (PreciseFault s s' ∨
      (s.memLen ≤ s'.memLen ∧ s'.pc = s.pc + 4 ∧ s'.params = s.params ∧ s'.rb = s.rb ∧ s'.state = s.state ∧
        s'.halted = s.halted ∧ s'.pendingTarget = s.pendingTarget ∧ s'.faultCode = s.faultCode ∧
        s'.faultPc = s.faultPc ∧ s'.faultInfo = s.faultInfo ∧ s'.resuming = s.resuming ∧ s'.driver = s.driver ∧
        s'.responses = s.responses))

/-- The jumps change no cell, and no register but pc, unless they fault (40_execution_cycle.md section 2; 43_jumps.md). -/
def Obligations.JumpsFrame : Prop :=
  ∀ (m1 m2 : Mode) (x : Nat) (i : Instr) (s s' : State),
    i ∈ [Instr.jumpIfTrue m1 m2 x, .jumpIfFalse m1 m2 x] → exec i s = .next s' →
    (∀ c, s'.cell c = s.cell c) ∧
    (PreciseFault s s' ∨
      (s.memLen ≤ s'.memLen ∧ s'.params = s.params ∧ s'.rb = s.rb ∧ s'.state = s.state ∧
        s'.halted = s.halted ∧ s'.pendingTarget = s.pendingTarget ∧ s'.faultCode = s.faultCode ∧
        s'.faultPc = s.faultPc ∧ s'.faultInfo = s.faultInfo ∧ s'.resuming = s.resuming ∧ s'.driver = s.driver ∧
        s'.responses = s.responses))

/-- INPUT changes no cell and leaves pc; of the registers it writes `pending_target` and `state`, unless it faults
(42_io.md). -/
def Obligations.InputFrame : Prop :=
  ∀ (m1 : Mode) (x : Nat) (s s' : State), exec (.input m1 x) s = .next s' →
    (∀ c, s'.cell c = s.cell c) ∧
    (PreciseFault s s' ∨
      (s.memLen ≤ s'.memLen ∧ s'.pc = s.pc ∧ s'.params = s.params ∧ s'.rb = s.rb ∧ s'.halted = s.halted ∧
        s'.faultCode = s.faultCode ∧ s'.faultPc = s.faultPc ∧ s'.faultInfo = s.faultInfo ∧ s'.driver = s.driver))

/-- OUTPUT changes no cell and no register but pc, unless it faults (42_io.md). -/
def Obligations.OutputFrame : Prop :=
  ∀ (m1 : Mode) (x : Nat) (s s' : State), exec (.output m1 x) s = .next s' →
    (∀ c, s'.cell c = s.cell c) ∧
    (PreciseFault s s' ∨
      (s.memLen ≤ s'.memLen ∧ s'.pc = s.pc + 2 ∧ s'.params = s.params ∧ s'.rb = s.rb ∧ s'.state = s.state ∧
        s'.halted = s.halted ∧ s'.pendingTarget = s.pendingTarget ∧ s'.faultCode = s.faultCode ∧
        s'.faultPc = s.faultPc ∧ s'.faultInfo = s.faultInfo ∧ s'.driver = s.driver))

/-- SET_RELATIVE_BASE changes no cell and no register but rb and pc, unless it faults (45_relative_base.md). -/
def Obligations.SetRelativeBaseFrame : Prop :=
  ∀ (m1 : Mode) (x : Nat) (s s' : State), exec (.setRelativeBase m1 x) s = .next s' →
    (∀ c, s'.cell c = s.cell c) ∧
    (PreciseFault s s' ∨
      (s.memLen ≤ s'.memLen ∧ s'.pc = s.pc + 2 ∧ s'.params = s.params ∧ s'.state = s.state ∧
        s'.halted = s.halted ∧ s'.pendingTarget = s.pendingTarget ∧ s'.faultCode = s.faultCode ∧
        s'.faultPc = s.faultPc ∧ s'.faultInfo = s.faultInfo ∧ s'.resuming = s.resuming ∧ s'.driver = s.driver ∧
        s'.responses = s.responses))

/-- TERMINATE changes no cell and, of the registers, `halted` and `state` only (46_terminate.md). -/
def Obligations.TerminateFrame : Prop :=
  ∀ (x : Nat) (s s' : State), exec (.terminate x) s = .next s' →
    (∀ c, s'.cell c = s.cell c) ∧ s'.memLen = s.memLen ∧ s'.pc = s.pc ∧ s'.params = s.params ∧ s'.rb = s.rb ∧
    s'.pendingTarget = s.pendingTarget ∧ s'.faultCode = s.faultCode ∧ s'.faultPc = s.faultPc ∧
    s'.faultInfo = s.faultInfo ∧ s'.driver = s.driver

/-! Rules about the whole machine. -/

/-- While a RESUME is served, a cell changes only where the word at pc is an instruction that stores, and then only the
cell its third operand addresses (40_execution_cycle.md section 2). -/
def Obligations.OnlyStoringInstructionsChangeCells : Prop :=
  ∀ (s s' : State) (c : Nat), s.resuming = true → s.state = .running → step s = .next s' → s'.cell c ≠ s.cell c →
    ∃ i, decode s.params.strictModeDigits s.word = .ok i ∧ i.writeOperand = some 3 ∧
      operandAddr i.modes.2.2 s.rb (s.raw 3) = some (c : Int)

/-- While a RESUME is served, rb changes only by SET_RELATIVE_BASE, `halted` only by TERMINATE, `pending_target` only by
INPUT, and the fault record only where the core enters Faulted (10_state.md sections 3, 4, 5, 6). -/
def Obligations.RegistersHaveOneWriter : Prop :=
  ∀ s s' : State, s.resuming = true → s.state = .running → step s = .next s' →
    (s'.rb ≠ s.rb → ∃ m x, decode s.params.strictModeDigits s.word = .ok (.setRelativeBase m x)) ∧
    (s'.halted ≠ s.halted → ∃ x, decode s.params.strictModeDigits s.word = .ok (.terminate x)) ∧
    (s'.pendingTarget ≠ s.pendingTarget → ∃ m x, decode s.params.strictModeDigits s.word = .ok (.input m x)) ∧
    ((s'.faultCode, s'.faultPc, s'.faultInfo) ≠ (s.faultCode, s.faultPc, s.faultInfo) → s'.state = .faulted)

/-- Memory never shrinks except by LOAD, and the parameters never change (20_memory.md section 2; 00_scope.md section 4). -/
def Obligations.MemoryNeverShrinks : Prop :=
  ∀ s s' : State, step s = .next s' →
    s'.params = s.params ∧
    (s.memLen ≤ s'.memLen ∨
      ∃ c rest, s.driver = c :: rest ∧ ((∃ image, c = .load image) ∨ ∃ text, c = .loadText text))

/-- A step sends at most one response; while a RESUME is served it sends one exactly where the service ends
(60_exceptions.md section 3; 40_execution_cycle.md section 3). -/
def Obligations.OneResponsePerStep : Prop :=
  ∀ s s' : State, step s = .next s' →
    (s'.responses = s.responses ∨ ∃ r, s'.responses = s.responses ++ [r]) ∧
    (s.resuming = true → s.state = .running →
      (s'.resuming = true ∧ s'.responses = s.responses) ∨
      (s'.resuming = false ∧ ∃ r, s'.responses = s.responses ++ [r]))

/-- What the driver has still to send, and what was answered before, do not influence the instructions of a RESUME: the
driver acts only between calls (60_exceptions.md section 5; 40_execution_cycle.md section 3). -/
def Obligations.DriverCannotInfluenceService : Prop :=
  ∀ (s : State) (d : List Command) (rs : List Response), s.resuming = true → s.state = .running →
    ∃ s' new, step s = .next s' ∧ s'.driver = s.driver ∧ s'.responses = s.responses ++ new ∧
      step { s with driver := d, responses := rs } = .next { s' with driver := d, responses := rs ++ new }

/-- The model refuses and stops nowhere: every state has a next state (a consequence of 60_exceptions.md section 2, where
every fault has an entry). -/
def Obligations.StepNeverStops : Prop := ∀ s : State, ∃ s', step s = .next s'

/-! The resume protocol. -/

/-- 40_execution_cycle.md R93: a resume of a Halted core raises AlreadyHaltedError (code 4) at the TERMINATE, and changes no
cell. -/
def Obligations.ResumeOfHaltedFaults : Prop :=
  ∀ (s : State) (c : Command) (rest : List Command), s.resuming = false → s.state = .halted → s.driver = c :: rest →
    (c = .resume ∨ ∃ v, c = .resumeWith v) →
    ∃ s', step s = .next s' ∧ s' = takeFault .alreadyHaltedError 0 { s with driver := rest } ∧
      s'.faultCode.code = 4 ∧ s'.faultPc = s.pc ∧ s'.faultInfo = 0 ∧ s'.state = .faulted ∧
      s'.halted = s.halted ∧ (s.Inv → s'.halted = true ∧ s.word.toInt % 100 = 99) ∧ s'.mem = s.mem ∧ s'.memLen = s.memLen ∧
      s'.responses = s.responses ++ [.fault .alreadyHaltedError s.pc 0]

/-- 40_execution_cycle.md R94: a resume of a Faulted core returns the recorded Fault again and changes nothing; a Faulted
core leaves Faulted only by LOAD. -/
def Obligations.FaultedIsSticky : Prop :=
  (∀ (s : State) (c : Command) (rest : List Command), s.resuming = false → s.state = .faulted → s.driver = c :: rest →
    (c = .resume ∨ ∃ v, c = .resumeWith v) →
    step s = .next { s with
      driver := rest
      responses := s.responses ++ [.fault s.faultCode s.faultPc s.faultInfo] }) ∧
  (∀ s s' : State, s.state = .faulted → step s = .next s' → s'.state ≠ .faulted →
    ∃ c rest, s.driver = c :: rest ∧ ((∃ image, c = .load image) ∨ ∃ text, c = .loadText text))

/-- 40_execution_cycle.md R95: a resume without a value holds a suspended INPUT; a value no INPUT asked for raises
InputProtocolError (code 8). -/
def Obligations.MisusedResumes : Prop :=
  (∀ (s : State) (rest : List Command), s.resuming = false → s.state = .awaitingInput → s.driver = .resume :: rest →
    step s = .next { s with driver := rest, responses := s.responses ++ [.needInput s.pc] }) ∧
  (∀ (s : State) (v : Word) (rest : List Command), s.resuming = false → s.state = .running →
    s.driver = .resumeWith v :: rest →
    step s = .next (takeFault .inputProtocolError v.toInt { s with driver := rest })) ∧
  FaultCode.inputProtocolError.code = 8

/-- 40_execution_cycle.md R92: a value supplied to a suspended INPUT is stored at the latched target, pc advances by 2 and
the core runs on. -/
def Obligations.SuppliedValueCompletesInput : Prop :=
  ∀ (s : State) (v : Word) (rest : List Command), s.resuming = false → s.state = .awaitingInput →
    s.pendingTarget < s.params.memLimit → s.driver = .resumeWith v :: rest →
    step s = .next { s with
      mem := s.mem.write s.pendingTarget v
      memLen := max s.memLen (s.pendingTarget + 1)
      pc := s.pc + 2
      state := .running
      resuming := true
      driver := rest }

/-- A resume of a Running core starts the run and changes nothing else; with no command the core waits
(40_execution_cycle.md section 3; 60_exceptions.md section 8). The step of its own is the model's (log 9, log 12). -/
def Obligations.ResumeOfRunningStarts : Prop :=
  ∀ (s : State), s.resuming = false →
    (∀ rest, s.state = .running → s.driver = .resume :: rest →
      step s = .next { s with resuming := true, driver := rest }) ∧
    (s.driver = [] → step s = .next s)

/-- A command sent while a RESUME has not responded is refused; otherwise it is the driver's next
(40_execution_cycle.md section 4). -/
def Obligations.BusyChannelRefuses : Prop :=
  ∀ (s : State) (c : Command),
    (s.resuming = true → submit c s = .refused .commandWhileBusy) ∧
    (s.resuming = false → s.driver = [] → submit c s = .next { s with driver := [c] })

/-! Reset and LOAD. -/

/-- 10_state.md R34: the state after `load` of a program image. -/
def Obligations.LoadResets : Prop :=
  ∀ (s : State) (image : List Word) (rest : List Command), s.resuming = false → s.driver = .load image :: rest →
    image.length ≤ s.params.memLimit →
    ∃ s', step s = .next s' ∧ (∀ i v, image[i]? = some v → s'.cell i = v) ∧
      (∀ a, image.length ≤ a → s'.cell a = 0) ∧ s'.memLen = image.length ∧ s'.pc = 0 ∧ s'.rb = 0 ∧
      s'.state = .running ∧ s'.halted = false ∧ s'.pendingTarget = 0 ∧ s'.faultCode.code = 0 ∧ s'.faultPc = 0 ∧
      s'.faultInfo = 0 ∧ s'.params = s.params ∧ s'.resuming = false ∧ s'.driver = rest ∧
      s'.responses = s.responses ++ [.ready]

/-- LOAD of a text loads the image the text spells, as LOAD of that image does; a refused LOAD leaves the core unchanged and
reports the lowest code that applies: MALFORMED where a piece between commas is no cell, else RANGE where a cell's value is
outside INT64, else TOO_LARGE. A cell is decimal digits with at most one minus sign before them, and spells their value
(70_reset_and_hazards.md section 1). -/
def Obligations.LoadTextLoadsOrRefuses : Prop :=
  (∀ (s : State) (text : List Char) (image : List Word) (rest : List Command), s.resuming = false →
    s.driver = .loadText text :: rest → parseProgram text = .ok image →
    step s = step { s with driver := .load image :: rest }) ∧
  (∀ (s : State) (image : List Word) (rest : List Command), s.resuming = false → s.driver = .load image :: rest →
    s.params.memLimit < image.length →
    step s = .next { s with driver := rest, responses := s.responses ++ [.loadError .tooLarge] }) ∧
  (∀ (s : State) (text : List Char) (e : LoadError) (rest : List Command), s.resuming = false →
    s.driver = .loadText text :: rest → parseProgram text = .error e →
    step s = .next { s with driver := rest, responses := s.responses ++ [.loadError e] }) ∧
  (∀ text, parseProgram text = .error .malformed ↔ text ≠ [] ∧ ∃ piece ∈ splitAtChar ',' text, parseCell piece = none) ∧
  (∀ text, parseProgram text = .error .range ↔ text ≠ [] ∧ (∀ piece ∈ splitAtChar ',' text, parseCell piece ≠ none) ∧
    ∃ piece ∈ splitAtChar ',' text, ∃ v, parseCell piece = some v ∧ ¬ in64 v) ∧
  (∀ text image, parseProgram text = .ok image ↔
    if text = [] then image = [] else (splitAtChar ',' text).map parseCell = image.map fun c => some c.toInt) ∧
  (∀ text, parseProgram text ≠ .error .tooLarge) ∧
  (∀ text, List.intercalate [','] (splitAtChar ',' text) = text ∧ ∀ piece ∈ splitAtChar ',' text, ',' ∉ piece) ∧
  (∀ digits : List Char, digits ≠ [] → (∀ c ∈ digits, 48 ≤ c.toNat ∧ c.toNat ≤ 57) →
    parseCell digits = some ((digits.foldl (fun n c => n * 10 + (c.toNat - 48)) 0 : Nat) : Int) ∧
    parseCell ('-' :: digits) = some (-((digits.foldl (fun n c => n * 10 + (c.toNat - 48)) 0 : Nat) : Int))) ∧
  (∀ piece, parseCell piece ≠ none →
    ∃ digits, digits ≠ [] ∧ (∀ c ∈ digits, 48 ≤ c.toNat ∧ c.toNat ≤ 57) ∧ (piece = digits ∨ piece = '-' :: digits)) ∧
  LoadError.malformed.code = 1 ∧ LoadError.range.code = 2 ∧ LoadError.tooLarge.code = 3

/-- The program text an assembler writes is what LOAD reads back, cell for cell (30_encoding.md section 6;
70_reset_and_hazards.md section 1). -/
def Obligations.RenderedProgramParses : Prop :=
  ∀ image : List Word, parseProgram (renderProgram image) = .ok image

/-- The word the assembler emits for an instruction line is, in the strict decoder, the instruction of that opcode with
the operands' modes (30_encoding.md section 6). -/
def Obligations.AssembledWordDecodes : Prop :=
  ∀ (labels : List (List Char × Nat)) (opcode : Nat) (operands : List AsmOperand) (row : OpcodeRow) (vs : List Int),
    opcodeTable opcode = some row → operands.length = row.operandCount →
    allSome (operands.map (·.resolve labels)) = some vs →
    (∀ k, row.writeOperand = some k → ∀ o ∈ operands[k - 1]?, o.mode ≠ .immediate) →
    ∃ (w : Nat) (i : Instr), (AsmItem.instr opcode operands).emit labels = some ((w : Int) :: vs) ∧
      decode true (BitVec.ofNat 64 w) = .ok i ∧ i.opcode = opcode ∧ i.excess = 0 ∧
      (operands.map (·.mode) ++ List.replicate (3 - operands.length) .position) = [i.modes.1, i.modes.2.1, i.modes.2.2]

/-! Invariants. -/

/-- The state after reset meets the invariant, for any parameters and any driver (the reset values of 10_state.md section 9;
the channel's own fields are the model's choice, log 8 to log 11). -/
def Obligations.ResetMeetsInvariant : Prop :=
  ∀ (p : Params) (script : List Command), p.wf → { State.reset with params := p, driver := script }.Inv

/-- Every step keeps the invariant: memory canonical and within its length, the ranges of the registers, the relations of
`state`, `halted` and the fault record, and the suspended INPUT at pc. -/
def Obligations.StepKeepsInvariant : Prop :=
  ∀ s s' : State, s.Inv → step s = .next s' → s'.Inv

/-- What every state reachable from reset satisfies, whatever the driver loads and sends: (a) to (f) of 10_state.md section 8,
which the spec marks as derived from its other rules. -/
def Obligations.ReachableStatesKeepSpecInvariants : Prop :=
  ∀ (p : Params) (script : List Command) (s : State), p.wf →
    Reaches { State.reset with params := p, driver := script } s →
    0 ≤ s.pc ∧
    (0 ≤ s.memLen ∧ s.memLen ≤ s.params.memLimit) ∧
    (s.state = .halted → s.halted = true) ∧
    (s.halted = true → s.state = .halted ∨ s.state = .faulted) ∧
    (s.state = .awaitingInput →
      0 ≤ s.word.toInt ∧ s.word.toInt % 100 = 3 ∧ s.pendingTarget < s.params.memLimit ∧
      ∀ s', step s = .next s' → s'.state = .awaitingInput → ∀ c, s'.cell c = s.cell c) ∧
    (s.state = .faulted ↔ s.faultCode.code ≠ 0)

/-- The hardware registers of 10_state.md section 7 hold every value that occurs, the execution state and the cause codes are
encoded as 10_state.md section 4 and 60_exceptions.md section 1 number them, and the encodings tell all values apart. -/
def Obligations.RegisterBitsLoseNothing : Prop :=
  (∀ s : State, s.Inv →
    s.registerBits.pc.toNat = s.pc ∧ s.registerBits.rb.toInt = s.rb.toInt ∧
    s.registerBits.state = s.state.code ∧ s.registerBits.faultCode = s.faultCode.code ∧
    s.registerBits.pendingTarget.toNat = s.pendingTarget ∧ s.registerBits.faultPc.toNat = s.faultPc ∧
    s.registerBits.faultInfo.toInt = s.faultInfo ∧ s.registerBits.memLen.toNat = s.memLen ∧
    s.registerBits.halted = (if s.halted then 1 else 0)) ∧
  ExecState.running.code = 0 ∧ ExecState.awaitingInput.code = 1 ∧ ExecState.halted.code = 2 ∧ ExecState.faulted.code = 3 ∧
  FaultCode.noFault.code = 0 ∧ FaultCode.addressError.code = 1 ∧ FaultCode.unknownOpcodeError.code = 2 ∧
  FaultCode.invalidWriteModeError.code = 3 ∧ FaultCode.alreadyHaltedError.code = 4 ∧
  FaultCode.unknownModeError.code = 5 ∧ FaultCode.overflowError.code = 6 ∧ FaultCode.capacityError.code = 7 ∧
  FaultCode.inputProtocolError.code = 8 ∧
  (∀ a b : ExecState, a.code = b.code → a = b) ∧ (∀ a b : FaultCode, a.code = b.code → a = b) ∧
  (∀ a : FaultCode, a.code.toNat ≤ 8)

/-! Operand resolution. -/

/-- 40_execution_cycle.md R80, R81, R82: which value a read operand and which address a write operand resolve to in each
mode, the Relative sum exact (the spec's decision D3); the plain values the other statements speak of are these. -/
def Obligations.ModesResolveOperands : Prop :=
  (∀ (raw w : Word) (s : State),
    resolveRead .position raw s = memRead raw.toInt s ∧
    resolveRead .immediate raw s = .ok raw s ∧
    resolveRead .relative raw s = memRead (s.rb.toInt + raw.toInt) s ∧
    resolveWrite .position raw w s = addrCheck raw.toInt s ∧
    resolveWrite .relative raw w s = addrCheck (s.rb.toInt + raw.toInt) s ∧
    -18446744073709551616 ≤ s.rb.toInt + raw.toInt ∧ s.rb.toInt + raw.toInt ≤ 18446744073709551614 ∧
    (raw.toInt < 0 → resolveRead .position raw s = raise .addressError raw.toInt s) ∧
    (s.rb.toInt + raw.toInt < 0 →
      resolveRead .relative raw s = raise .addressError (s.rb.toInt + raw.toInt) s ∧
      resolveWrite .relative raw w s = raise .addressError (s.rb.toInt + raw.toInt) s) ∧
    ((s.params.memLimit : Int) ≤ s.rb.toInt + raw.toInt → 0 ≤ s.rb.toInt + raw.toInt →
      resolveRead .relative raw s = raise .capacityError (s.rb.toInt + raw.toInt) s ∧
      resolveWrite .relative raw w s = raise .capacityError (s.rb.toInt + raw.toInt) s)) ∧
  (∀ (m : Mode) (raw w : Word) (s t : State) (n : Nat), resolveWrite m raw w s = .ok n t → t = s) ∧
  (∀ (strict : Bool) (w : Word) (i : Instr), decode strict w = .ok i →
    (i.writeOperand = some 1 → i.modes.1 ≠ .immediate) ∧ (i.writeOperand = some 3 → i.modes.2.2 ≠ .immediate) ∧
    (i.writeOperand = none ∨ i.writeOperand = some 1 ∨ i.writeOperand = some 3)) ∧
  (∀ (s : State) (k : Nat),
    s.raw k = s.cell (s.pc + k) ∧
    operandAddr .position s.rb (s.raw k) = some (s.raw k).toInt ∧
    operandAddr .immediate s.rb (s.raw k) = none ∧
    operandAddr .relative s.rb (s.raw k) = some (s.rb.toInt + (s.raw k).toInt) ∧
    s.operand .position k = s.cell (s.raw k).toInt.toNat ∧
    s.operand .immediate k = s.raw k ∧
    s.operand .relative k = s.cell (s.rb.toInt + (s.raw k).toInt).toNat) ∧
  (∀ (s : State) (m : Mode) (k t : Nat), s.target m k = some t ↔
    operandAddr m s.rb (s.raw k) = some (t : Int) ∧ t < s.params.memLimit)
end

