-- ==== Sys2Proof/Laws/State.lean ====
section
/-! SUPPORT. What each update of State does to each field: one lemma a field, true by rfl, so that no proof unfolds a
record update. -/

namespace Sys2Proof.Machine

variable (s : State)

/-! `setCell` -/

@[simp] theorem setCell_params (a : Nat) (v : Word) : (s.setCell a v).params = s.params := rfl
@[simp] theorem setCell_mem (a : Nat) (v : Word) : (s.setCell a v).mem = s.mem.write a v := rfl
@[simp] theorem setCell_memLen (a : Nat) (v : Word) : (s.setCell a v).memLen = s.memLen := rfl
@[simp] theorem setCell_pc (a : Nat) (v : Word) : (s.setCell a v).pc = s.pc := rfl
@[simp] theorem setCell_rb (a : Nat) (v : Word) : (s.setCell a v).rb = s.rb := rfl
@[simp] theorem setCell_state (a : Nat) (v : Word) : (s.setCell a v).state = s.state := rfl
@[simp] theorem setCell_halted (a : Nat) (v : Word) : (s.setCell a v).halted = s.halted := rfl
@[simp] theorem setCell_pendingTarget (a : Nat) (v : Word) : (s.setCell a v).pendingTarget = s.pendingTarget := rfl
@[simp] theorem setCell_faultCode (a : Nat) (v : Word) : (s.setCell a v).faultCode = s.faultCode := rfl
@[simp] theorem setCell_faultPc (a : Nat) (v : Word) : (s.setCell a v).faultPc = s.faultPc := rfl
@[simp] theorem setCell_faultInfo (a : Nat) (v : Word) : (s.setCell a v).faultInfo = s.faultInfo := rfl
@[simp] theorem setCell_resuming (a : Nat) (v : Word) : (s.setCell a v).resuming = s.resuming := rfl
@[simp] theorem setCell_driver (a : Nat) (v : Word) : (s.setCell a v).driver = s.driver := rfl
@[simp] theorem setCell_responses (a : Nat) (v : Word) : (s.setCell a v).responses = s.responses := rfl

/-! `extend` -/

@[simp] theorem extend_params (a : Nat) : (s.extend a).params = s.params := rfl
@[simp] theorem extend_mem (a : Nat) : (s.extend a).mem = s.mem := rfl
@[simp] theorem extend_memLen (a : Nat) : (s.extend a).memLen = a + 1 := rfl
@[simp] theorem extend_pc (a : Nat) : (s.extend a).pc = s.pc := rfl
@[simp] theorem extend_rb (a : Nat) : (s.extend a).rb = s.rb := rfl
@[simp] theorem extend_state (a : Nat) : (s.extend a).state = s.state := rfl
@[simp] theorem extend_halted (a : Nat) : (s.extend a).halted = s.halted := rfl
@[simp] theorem extend_pendingTarget (a : Nat) : (s.extend a).pendingTarget = s.pendingTarget := rfl
@[simp] theorem extend_faultCode (a : Nat) : (s.extend a).faultCode = s.faultCode := rfl
@[simp] theorem extend_faultPc (a : Nat) : (s.extend a).faultPc = s.faultPc := rfl
@[simp] theorem extend_faultInfo (a : Nat) : (s.extend a).faultInfo = s.faultInfo := rfl
@[simp] theorem extend_resuming (a : Nat) : (s.extend a).resuming = s.resuming := rfl
@[simp] theorem extend_driver (a : Nat) : (s.extend a).driver = s.driver := rfl
@[simp] theorem extend_responses (a : Nat) : (s.extend a).responses = s.responses := rfl

/-! `advance` -/

@[simp] theorem advance_params (n : Nat) : (s.advance n).params = s.params := rfl
@[simp] theorem advance_mem (n : Nat) : (s.advance n).mem = s.mem := rfl
@[simp] theorem advance_memLen (n : Nat) : (s.advance n).memLen = s.memLen := rfl
@[simp] theorem advance_pc (n : Nat) : (s.advance n).pc = s.pc + n := rfl
@[simp] theorem advance_rb (n : Nat) : (s.advance n).rb = s.rb := rfl
@[simp] theorem advance_state (n : Nat) : (s.advance n).state = s.state := rfl
@[simp] theorem advance_halted (n : Nat) : (s.advance n).halted = s.halted := rfl
@[simp] theorem advance_pendingTarget (n : Nat) : (s.advance n).pendingTarget = s.pendingTarget := rfl
@[simp] theorem advance_faultCode (n : Nat) : (s.advance n).faultCode = s.faultCode := rfl
@[simp] theorem advance_faultPc (n : Nat) : (s.advance n).faultPc = s.faultPc := rfl
@[simp] theorem advance_faultInfo (n : Nat) : (s.advance n).faultInfo = s.faultInfo := rfl
@[simp] theorem advance_resuming (n : Nat) : (s.advance n).resuming = s.resuming := rfl
@[simp] theorem advance_driver (n : Nat) : (s.advance n).driver = s.driver := rfl
@[simp] theorem advance_responses (n : Nat) : (s.advance n).responses = s.responses := rfl

/-! `setRb` -/

@[simp] theorem setRb_params (v : Word) : (s.setRb v).params = s.params := rfl
@[simp] theorem setRb_mem (v : Word) : (s.setRb v).mem = s.mem := rfl
@[simp] theorem setRb_memLen (v : Word) : (s.setRb v).memLen = s.memLen := rfl
@[simp] theorem setRb_pc (v : Word) : (s.setRb v).pc = s.pc := rfl
@[simp] theorem setRb_rb (v : Word) : (s.setRb v).rb = v := rfl
@[simp] theorem setRb_state (v : Word) : (s.setRb v).state = s.state := rfl
@[simp] theorem setRb_halted (v : Word) : (s.setRb v).halted = s.halted := rfl
@[simp] theorem setRb_pendingTarget (v : Word) : (s.setRb v).pendingTarget = s.pendingTarget := rfl
@[simp] theorem setRb_faultCode (v : Word) : (s.setRb v).faultCode = s.faultCode := rfl
@[simp] theorem setRb_faultPc (v : Word) : (s.setRb v).faultPc = s.faultPc := rfl
@[simp] theorem setRb_faultInfo (v : Word) : (s.setRb v).faultInfo = s.faultInfo := rfl
@[simp] theorem setRb_resuming (v : Word) : (s.setRb v).resuming = s.resuming := rfl
@[simp] theorem setRb_driver (v : Word) : (s.setRb v).driver = s.driver := rfl
@[simp] theorem setRb_responses (v : Word) : (s.setRb v).responses = s.responses := rfl

/-! `halt` -/

@[simp] theorem halt_params : (s.halt).params = s.params := rfl
@[simp] theorem halt_mem : (s.halt).mem = s.mem := rfl
@[simp] theorem halt_memLen : (s.halt).memLen = s.memLen := rfl
@[simp] theorem halt_pc : (s.halt).pc = s.pc := rfl
@[simp] theorem halt_rb : (s.halt).rb = s.rb := rfl
@[simp] theorem halt_state : (s.halt).state = .halted := rfl
@[simp] theorem halt_halted : (s.halt).halted = true := rfl
@[simp] theorem halt_pendingTarget : (s.halt).pendingTarget = s.pendingTarget := rfl
@[simp] theorem halt_faultCode : (s.halt).faultCode = s.faultCode := rfl
@[simp] theorem halt_faultPc : (s.halt).faultPc = s.faultPc := rfl
@[simp] theorem halt_faultInfo : (s.halt).faultInfo = s.faultInfo := rfl
@[simp] theorem halt_resuming : (s.halt).resuming = s.resuming := rfl
@[simp] theorem halt_driver : (s.halt).driver = s.driver := rfl
@[simp] theorem halt_responses : (s.halt).responses = s.responses := rfl

/-! `respond` -/

@[simp] theorem respond_params (r : Response) : (s.respond r).params = s.params := rfl
@[simp] theorem respond_mem (r : Response) : (s.respond r).mem = s.mem := rfl
@[simp] theorem respond_memLen (r : Response) : (s.respond r).memLen = s.memLen := rfl
@[simp] theorem respond_pc (r : Response) : (s.respond r).pc = s.pc := rfl
@[simp] theorem respond_rb (r : Response) : (s.respond r).rb = s.rb := rfl
@[simp] theorem respond_state (r : Response) : (s.respond r).state = s.state := rfl
@[simp] theorem respond_halted (r : Response) : (s.respond r).halted = s.halted := rfl
@[simp] theorem respond_pendingTarget (r : Response) : (s.respond r).pendingTarget = s.pendingTarget := rfl
@[simp] theorem respond_faultCode (r : Response) : (s.respond r).faultCode = s.faultCode := rfl
@[simp] theorem respond_faultPc (r : Response) : (s.respond r).faultPc = s.faultPc := rfl
@[simp] theorem respond_faultInfo (r : Response) : (s.respond r).faultInfo = s.faultInfo := rfl
@[simp] theorem respond_resuming (r : Response) : (s.respond r).resuming = s.resuming := rfl
@[simp] theorem respond_driver (r : Response) : (s.respond r).driver = s.driver := rfl
@[simp] theorem respond_responses (r : Response) : (s.respond r).responses = s.responses ++ [r] := rfl

/-! `emit` -/

@[simp] theorem emit_params (r : Response) : (s.emit r).params = s.params := rfl
@[simp] theorem emit_mem (r : Response) : (s.emit r).mem = s.mem := rfl
@[simp] theorem emit_memLen (r : Response) : (s.emit r).memLen = s.memLen := rfl
@[simp] theorem emit_pc (r : Response) : (s.emit r).pc = s.pc := rfl
@[simp] theorem emit_rb (r : Response) : (s.emit r).rb = s.rb := rfl
@[simp] theorem emit_state (r : Response) : (s.emit r).state = s.state := rfl
@[simp] theorem emit_halted (r : Response) : (s.emit r).halted = s.halted := rfl
@[simp] theorem emit_pendingTarget (r : Response) : (s.emit r).pendingTarget = s.pendingTarget := rfl
@[simp] theorem emit_faultCode (r : Response) : (s.emit r).faultCode = s.faultCode := rfl
@[simp] theorem emit_faultPc (r : Response) : (s.emit r).faultPc = s.faultPc := rfl
@[simp] theorem emit_faultInfo (r : Response) : (s.emit r).faultInfo = s.faultInfo := rfl
@[simp] theorem emit_resuming (r : Response) : (s.emit r).resuming = false := rfl
@[simp] theorem emit_driver (r : Response) : (s.emit r).driver = s.driver := rfl
@[simp] theorem emit_responses (r : Response) : (s.emit r).responses = s.responses ++ [r] := rfl

/-! `takeFault` -/

@[simp] theorem takeFault_params (f : FaultCode) (info : Int) : (takeFault f info s).params = s.params := rfl
@[simp] theorem takeFault_mem (f : FaultCode) (info : Int) : (takeFault f info s).mem = s.mem := rfl
@[simp] theorem takeFault_memLen (f : FaultCode) (info : Int) : (takeFault f info s).memLen = s.memLen := rfl
@[simp] theorem takeFault_pc (f : FaultCode) (info : Int) : (takeFault f info s).pc = s.pc := rfl
@[simp] theorem takeFault_rb (f : FaultCode) (info : Int) : (takeFault f info s).rb = s.rb := rfl
@[simp] theorem takeFault_state (f : FaultCode) (info : Int) : (takeFault f info s).state = .faulted := rfl
@[simp] theorem takeFault_halted (f : FaultCode) (info : Int) : (takeFault f info s).halted = s.halted := rfl
@[simp] theorem takeFault_pendingTarget (f : FaultCode) (info : Int) : (takeFault f info s).pendingTarget = s.pendingTarget := rfl
@[simp] theorem takeFault_faultCode (f : FaultCode) (info : Int) : (takeFault f info s).faultCode = f := rfl
@[simp] theorem takeFault_faultPc (f : FaultCode) (info : Int) : (takeFault f info s).faultPc = s.pc := rfl
@[simp] theorem takeFault_faultInfo (f : FaultCode) (info : Int) : (takeFault f info s).faultInfo = info := rfl
@[simp] theorem takeFault_resuming (f : FaultCode) (info : Int) : (takeFault f info s).resuming = false := rfl
@[simp] theorem takeFault_driver (f : FaultCode) (info : Int) : (takeFault f info s).driver = s.driver := rfl
@[simp] theorem takeFault_responses (f : FaultCode) (info : Int) : (takeFault f info s).responses = s.responses ++ [.fault f s.pc info] := rfl

/-! `suspendInput` -/

@[simp] theorem suspendInput_params (t : Nat) : (suspendInput t s).params = s.params := rfl
@[simp] theorem suspendInput_mem (t : Nat) : (suspendInput t s).mem = s.mem := rfl
@[simp] theorem suspendInput_memLen (t : Nat) : (suspendInput t s).memLen = s.memLen := rfl
@[simp] theorem suspendInput_pc (t : Nat) : (suspendInput t s).pc = s.pc := rfl
@[simp] theorem suspendInput_rb (t : Nat) : (suspendInput t s).rb = s.rb := rfl
@[simp] theorem suspendInput_state (t : Nat) : (suspendInput t s).state = .awaitingInput := rfl
@[simp] theorem suspendInput_halted (t : Nat) : (suspendInput t s).halted = s.halted := rfl
@[simp] theorem suspendInput_pendingTarget (t : Nat) : (suspendInput t s).pendingTarget = t := rfl
@[simp] theorem suspendInput_faultCode (t : Nat) : (suspendInput t s).faultCode = s.faultCode := rfl
@[simp] theorem suspendInput_faultPc (t : Nat) : (suspendInput t s).faultPc = s.faultPc := rfl
@[simp] theorem suspendInput_faultInfo (t : Nat) : (suspendInput t s).faultInfo = s.faultInfo := rfl
@[simp] theorem suspendInput_resuming (t : Nat) : (suspendInput t s).resuming = false := rfl
@[simp] theorem suspendInput_driver (t : Nat) : (suspendInput t s).driver = s.driver := rfl
@[simp] theorem suspendInput_responses (t : Nat) : (suspendInput t s).responses = s.responses ++ [.needInput s.pc] := rfl

/-! `startRun` -/

@[simp] theorem startRun_params : (s.startRun).params = s.params := rfl
@[simp] theorem startRun_mem : (s.startRun).mem = s.mem := rfl
@[simp] theorem startRun_memLen : (s.startRun).memLen = s.memLen := rfl
@[simp] theorem startRun_pc : (s.startRun).pc = s.pc := rfl
@[simp] theorem startRun_rb : (s.startRun).rb = s.rb := rfl
@[simp] theorem startRun_state : (s.startRun).state = s.state := rfl
@[simp] theorem startRun_halted : (s.startRun).halted = s.halted := rfl
@[simp] theorem startRun_pendingTarget : (s.startRun).pendingTarget = s.pendingTarget := rfl
@[simp] theorem startRun_faultCode : (s.startRun).faultCode = s.faultCode := rfl
@[simp] theorem startRun_faultPc : (s.startRun).faultPc = s.faultPc := rfl
@[simp] theorem startRun_faultInfo : (s.startRun).faultInfo = s.faultInfo := rfl
@[simp] theorem startRun_resuming : (s.startRun).resuming = true := rfl
@[simp] theorem startRun_driver : (s.startRun).driver = s.driver := rfl
@[simp] theorem startRun_responses : (s.startRun).responses = s.responses := rfl

/-! `loaded` -/

@[simp] theorem loaded_params (image : List Word) : (s.loaded image).params = s.params := rfl
@[simp] theorem loaded_mem (image : List Word) : (s.loaded image).mem = Memory.ofImageAt 0 image := rfl
@[simp] theorem loaded_memLen (image : List Word) : (s.loaded image).memLen = image.length := rfl
@[simp] theorem loaded_pc (image : List Word) : (s.loaded image).pc = 0 := rfl
@[simp] theorem loaded_rb (image : List Word) : (s.loaded image).rb = 0 := rfl
@[simp] theorem loaded_state (image : List Word) : (s.loaded image).state = .running := rfl
@[simp] theorem loaded_halted (image : List Word) : (s.loaded image).halted = false := rfl
@[simp] theorem loaded_pendingTarget (image : List Word) : (s.loaded image).pendingTarget = 0 := rfl
@[simp] theorem loaded_faultCode (image : List Word) : (s.loaded image).faultCode = .noFault := rfl
@[simp] theorem loaded_faultPc (image : List Word) : (s.loaded image).faultPc = 0 := rfl
@[simp] theorem loaded_faultInfo (image : List Word) : (s.loaded image).faultInfo = 0 := rfl
@[simp] theorem loaded_resuming (image : List Word) : (s.loaded image).resuming = false := rfl
@[simp] theorem loaded_driver (image : List Word) : (s.loaded image).driver = s.driver := rfl
@[simp] theorem loaded_responses (image : List Word) : (s.loaded image).responses = s.responses := rfl

/-! `grow` -/

/-- Growing for cell `a` makes memory `a + 1` cells long if it is shorter, and changes nothing else. -/
theorem grow_eq (a : Nat) : s.grow a = { s with memLen := max s.memLen (a + 1) } := by
  unfold State.grow
  split
  · next h => simp [State.extend, Nat.max_eq_right (Nat.le_succ_of_le h)]
  · next h => rw [Nat.max_eq_left (by omega)]

@[simp] theorem grow_params (a : Nat) : (s.grow a).params = s.params := by rw [grow_eq]
@[simp] theorem grow_mem (a : Nat) : (s.grow a).mem = s.mem := by rw [grow_eq]
@[simp] theorem grow_memLen (a : Nat) : (s.grow a).memLen = max s.memLen (a + 1) := by rw [grow_eq]
@[simp] theorem grow_pc (a : Nat) : (s.grow a).pc = s.pc := by rw [grow_eq]
@[simp] theorem grow_rb (a : Nat) : (s.grow a).rb = s.rb := by rw [grow_eq]
@[simp] theorem grow_state (a : Nat) : (s.grow a).state = s.state := by rw [grow_eq]
@[simp] theorem grow_halted (a : Nat) : (s.grow a).halted = s.halted := by rw [grow_eq]
@[simp] theorem grow_pendingTarget (a : Nat) : (s.grow a).pendingTarget = s.pendingTarget := by rw [grow_eq]
@[simp] theorem grow_faultCode (a : Nat) : (s.grow a).faultCode = s.faultCode := by rw [grow_eq]
@[simp] theorem grow_faultPc (a : Nat) : (s.grow a).faultPc = s.faultPc := by rw [grow_eq]
@[simp] theorem grow_faultInfo (a : Nat) : (s.grow a).faultInfo = s.faultInfo := by rw [grow_eq]
@[simp] theorem grow_resuming (a : Nat) : (s.grow a).resuming = s.resuming := by rw [grow_eq]
@[simp] theorem grow_driver (a : Nat) : (s.grow a).driver = s.driver := by rw [grow_eq]
@[simp] theorem grow_responses (a : Nat) : (s.grow a).responses = s.responses := by rw [grow_eq]

/-! Cells. -/

@[simp] theorem cell_grow (a b : Nat) : (s.grow a).cell b = s.cell b := by simp [State.cell]
@[simp] theorem cell_advance (n b : Nat) : (s.advance n).cell b = s.cell b := rfl
@[simp] theorem cell_setRb (v : Word) (b : Nat) : (s.setRb v).cell b = s.cell b := rfl
@[simp] theorem cell_emit (r : Response) (b : Nat) : (s.emit r).cell b = s.cell b := rfl
@[simp] theorem cell_halt (b : Nat) : (s.halt).cell b = s.cell b := rfl
@[simp] theorem cell_takeFault (f : FaultCode) (info : Int) (b : Nat) : (takeFault f info s).cell b = s.cell b := rfl
@[simp] theorem cell_suspendInput (t b : Nat) : (suspendInput t s).cell b = s.cell b := rfl

/-! How a stage passes its state on. -/

@[simp] theorem bind_ok {α β : Type} (a : α) (k : α → State → Res β) : (Res.ok a s).bind k = k a s := rfl
@[simp] theorem bind_raised {α β : Type} (k : α → State → Res β) : (Res.raised s : Res α).bind k = .raised s := rfl
@[simp] theorem bind_raise {α β : Type} (f : FaultCode) (info : Int) (k : α → State → Res β) :
    (raise f info s : Res α).bind k = raise f info s := rfl
@[simp] theorem state_ok {α : Type} (a : α) : (Res.ok a s).state = s := rfl
@[simp] theorem state_raised {α : Type} : (Res.raised s : Res α).state = s := rfl
@[simp] theorem state_raise {α : Type} (f : FaultCode) (info : Int) :
    (raise f info s : Res α).state = takeFault f info s := rfl
@[simp] theorem outcome_ok {α : Type} (a : α) : (Res.ok a s).outcome = .next s := rfl
@[simp] theorem outcome_raise {α : Type} (f : FaultCode) (info : Int) :
    (raise f info s : Res α).outcome = .next (takeFault f info s) := rfl

end Sys2Proof.Machine
end

