-- ==== Sys2Proof/Laws/Memory.lean ====
section
/-! SUPPORT. The laws of memory: read after write, and the canonical form every operation keeps (20_memory.md R43, R46). -/

namespace Sys2Proof.Machine

theorem read_filter (m : Memory) (a b : Nat) : Memory.read (m.erase a) b = if b = a then 0 else m.read b := by
  induction m with
  | nil => simp [Memory.erase, Memory.read]
  | cons c rest ih =>
    obtain ⟨k, v⟩ := c
    unfold Memory.erase at ih ⊢
    by_cases hk : k = a
    · subst hk
      simp only [List.filter_cons, bne_self_eq_false, Bool.false_eq_true, ↓reduceIte, ih, Memory.read]
      split
      · rfl
      · rfl
    · simp only [List.filter_cons, bne_iff_ne, ne_eq, hk, not_false_eq_true, ↓reduceIte, Memory.read, ih]
      by_cases hb : b = k
      · subst hb; simp [hk]
      · simp [hb]

theorem read_insertCell (m : Memory) (a b : Nat) (v : Word) (h : ∀ c ∈ m, c.1 ≠ a) :
    Memory.read (m.insertCell a v) b = if b = a then v else m.read b := by
  induction m with
  | nil => simp [Memory.insertCell, Memory.read]
  | cons c rest ih =>
    obtain ⟨k, u⟩ := c
    have hk : k ≠ a := h (k, u) (by simp)
    have ih := ih fun c hc => h c (List.mem_cons_of_mem _ hc)
    simp only [Memory.insertCell]
    split
    · simp [Memory.read]
    · simp only [Memory.read, ih]
      by_cases hb : b = k
      · subst hb; simp [hk]
      · simp [hb]

theorem erase_keys (m : Memory) (a : Nat) : ∀ c ∈ m.erase a, c.1 ≠ a := by
  intro c hc
  simpa using (List.mem_filter.mp hc).2

/-- A read after a write: the cell written gives the value, every other cell is as before. -/
theorem read_write (m : Memory) (a b : Nat) (v : Word) :
    Memory.read (m.write a v) b = if b = a then v else m.read b := by
  unfold Memory.write
  split
  · next h => rw [read_filter, h]
  · rw [read_insertCell _ _ _ _ (erase_keys m a), read_filter]
    split <;> rfl

@[simp] theorem read_write_same (m : Memory) (a : Nat) (v : Word) : Memory.read (m.write a v) a = v := by
  simp [read_write]

theorem read_write_other (m : Memory) {a b : Nat} (v : Word) (h : b ≠ a) :
    Memory.read (m.write a v) b = m.read b := by
  simp [read_write, h]

theorem mem_insertCell (m : Memory) (a : Nat) (v : Word) (c : Nat × Word) :
    c ∈ m.insertCell a v ↔ c = (a, v) ∨ c ∈ m := by
  induction m with
  | nil => simp [Memory.insertCell]
  | cons d rest ih =>
    simp only [Memory.insertCell]
    split
    · simp
    · simp only [List.mem_cons, ih]; tauto

theorem erase_wf (m : Memory) (a : Nat) (h : m.wf) : (m.erase a).wf :=
  ⟨h.1.filter _, fun c hc => h.2 c (List.mem_of_mem_filter hc)⟩

theorem insertCell_wf (m : Memory) (a : Nat) (v : Word) (h : m.wf) (hv : v ≠ 0) (ha : ∀ c ∈ m, c.1 ≠ a) :
    (m.insertCell a v).wf := by
  refine ⟨?_, fun c hc => ?_⟩
  · induction m with
    | nil => simp [Memory.insertCell]
    | cons d rest ih =>
      have hd := List.pairwise_cons.mp h.1
      have hda : d.1 ≠ a := ha d (by simp)
      have ih := ih ⟨hd.2, fun c hc => h.2 c (List.mem_cons_of_mem _ hc)⟩ fun c hc => ha c (List.mem_cons_of_mem _ hc)
      simp only [Memory.insertCell]
      split
      · next hlt =>
        refine List.pairwise_cons.mpr ⟨fun c hc => ?_, h.1⟩
        rcases List.mem_cons.mp hc with rfl | hc
        · exact hlt
        · exact hlt.trans (hd.1 c hc)
      · next hge =>
        refine List.pairwise_cons.mpr ⟨fun c hc => ?_, ih⟩
        rcases (mem_insertCell rest a v c).mp hc with rfl | hc
        · exact lt_of_le_of_ne (not_lt.mp hge) hda
        · exact hd.1 c hc
  · rcases (mem_insertCell m a v c).mp hc with rfl | hc
    · exact hv
    · exact h.2 c hc

/-- A write keeps the canonical form. -/
theorem write_wf (m : Memory) (a : Nat) (v : Word) (h : m.wf) : (m.write a v).wf := by
  unfold Memory.write
  split
  · exact erase_wf m a h
  · next hv => exact insertCell_wf _ a v (erase_wf m a h) hv (erase_keys m a)

/-- A listed cell after a write is the one written or was listed before. -/
theorem mem_write {m : Memory} {a : Nat} {v : Word} {c : Nat × Word} (h : c ∈ m.write a v) : c.1 = a ∨ c ∈ m := by
  unfold Memory.write at h
  split at h
  · exact .inr (List.mem_of_mem_filter h)
  · rcases (mem_insertCell _ a v c).mp h with rfl | h
    · exact .inl rfl
    · exact .inr (List.mem_of_mem_filter h)

theorem mem_ofImageAt {image : List Word} {a : Nat} {c : Nat × Word} (h : c ∈ Memory.ofImageAt a image) :
    a ≤ c.1 ∧ c.1 < a + image.length ∧ c.2 ≠ 0 := by
  induction image generalizing a with
  | nil => simp [Memory.ofImageAt] at h
  | cons v rest ih =>
    simp only [Memory.ofImageAt] at h
    simp only [List.length_cons]
    split at h
    · obtain ⟨h1, h2, h3⟩ := ih h
      exact ⟨by omega, by omega, h3⟩
    · next hv =>
      rcases List.mem_cons.mp h with rfl | h
      · exact ⟨le_rfl, by simp, hv⟩
      · obtain ⟨h1, h2, h3⟩ := ih h
        exact ⟨by omega, by omega, h3⟩

/-- A loaded image is in canonical form. -/
theorem ofImageAt_wf (image : List Word) (a : Nat) : (Memory.ofImageAt a image).wf := by
  refine ⟨?_, fun c hc => (mem_ofImageAt hc).2.2⟩
  induction image generalizing a with
  | nil => simp [Memory.ofImageAt]
  | cons v rest ih =>
    simp only [Memory.ofImageAt]
    split
    · exact ih _
    · exact List.pairwise_cons.mpr ⟨fun c hc => (mem_ofImageAt hc).1, ih _⟩

/-- Cell `a + i` of a loaded image holds its i-th value, and no other cell holds anything but 0. -/
theorem read_ofImageAt (image : List Word) (a b : Nat) :
    Memory.read (Memory.ofImageAt a image) b = if a ≤ b then image.getD (b - a) 0 else 0 := by
  induction image generalizing a with
  | nil => simp [Memory.ofImageAt, Memory.read]
  | cons v rest ih =>
    have key : (if a + 1 ≤ b then rest.getD (b - (a + 1)) 0 else 0) =
        if b = a then 0 else if a ≤ b then (v :: rest).getD (b - a) 0 else 0 := by
      by_cases hb : b = a
      · simp [hb]
      · by_cases hab : a + 1 ≤ b
        · have : b - a = (b - (a + 1)) + 1 := by omega
          rw [if_pos hab, if_neg hb, if_pos (by omega), this, List.getD_cons_succ]
        · rw [if_neg hab, if_neg hb, if_neg (by omega)]
    simp only [Memory.ofImageAt]
    split
    · next hv =>
      rw [ih, key]
      by_cases hb : b = a
      · subst hb; simp [hv]
      · simp [hb]
    · simp only [Memory.read, ih, key]
      by_cases hb : b = a
      · subst hb; simp
      · simp [hb]

/-- An address no pair lists reads 0 (R46). -/
theorem read_unlisted (m : Memory) (a : Nat) (h : ∀ c ∈ m, c.1 ≠ a) : m.read a = 0 := by
  induction m with
  | nil => rfl
  | cons c rest ih =>
    obtain ⟨k, v⟩ := c
    have hk : k ≠ a := h (k, v) (by simp)
    simp only [Memory.read, Ne.symm hk, ↓reduceIte]
    exact ih fun c hc => h c (List.mem_cons_of_mem _ hc)

/-- In a canonical memory a listed pair is what its address reads. -/
theorem read_listed (m : Memory) (h : m.wf) {c : Nat × Word} (hc : c ∈ m) : m.read c.1 = c.2 := by
  induction m with
  | nil => simp at hc
  | cons d rest ih =>
    obtain ⟨k, v⟩ := d
    have hd := List.pairwise_cons.mp h.1
    rcases List.mem_cons.mp hc with rfl | hc'
    · simp [Memory.read]
    · have hlt := hd.1 c hc'
      have hne : c.1 ≠ k := by simp only at hlt; omega
      simp only [Memory.read, hne, ↓reduceIte]
      exact ih ⟨hd.2, fun c hc => h.2 c (List.mem_cons_of_mem _ hc)⟩ hc'

@[simp] theorem cell_setCell (s : State) (a b : Nat) (v : Word) :
    (s.setCell a v).cell b = if b = a then v else s.cell b := read_write s.mem a b v

end Sys2Proof.Machine
end

