-- ==== Sys2Proof/Laws/Ops.lean ====
section
/-! SUPPORT. One lemma for each shared operation: what it answers, and when (20_memory.md R41 to R43; 41_arithmetic.md
R110; 43_jumps.md R132). -/

namespace Sys2Proof.Machine

variable {s : State}

theorem addressFault_eq_none {limit : Nat} {a : Int} : addressFault limit a = none ↔ 0 ≤ a ∧ a < limit := by
  unfold addressFault
  split
  · simp; omega
  · split
    · simp; omega
    · simp; omega

/-- An address fault is one of two. -/
theorem addressFault_eq_some {limit : Nat} {a : Int} {f : FaultCode} (h : addressFault limit a = some f) :
    (f = .addressError ∧ a < 0) ∨ (f = .capacityError ∧ 0 ≤ a ∧ (limit : Int) ≤ a) := by
  unfold addressFault at h
  split at h
  · next ha => exact .inl ⟨by simpa using h.symm, ha⟩
  · split at h
    · next ha hl => exact .inr ⟨by simpa using h.symm, by omega, hl⟩
    · simp at h

theorem addressFault_natCast {limit n : Nat} (h : n < limit) : addressFault limit (n : Int) = none :=
  addressFault_eq_none.mpr ⟨by omega, by omega⟩

theorem addressFault_natCast_ge {limit n : Nat} (h : limit ≤ n) : addressFault limit (n : Int) = some .capacityError := by
  unfold addressFault
  rw [if_neg (by omega), if_pos (by omega)]

theorem addrCheck_ok {a : Int} (h : addressFault s.params.memLimit a = none) : addrCheck a s = .ok a.toNat s := by
  simp [addrCheck, h]

theorem addrCheck_fault {a : Int} {f : FaultCode} (h : addressFault s.params.memLimit a = some f) :
    addrCheck a s = raise f a s := by
  simp [addrCheck, h]

/-- READ of an address that exists: the cell's value, memory grown to hold the cell. -/
theorem memRead_ok {a : Int} (h : addressFault s.params.memLimit a = none) :
    memRead a s = .ok (s.cell a.toNat) (s.grow a.toNat) := by
  simp [memRead, addrCheck_ok h]

theorem memRead_fault {a : Int} {f : FaultCode} (h : addressFault s.params.memLimit a = some f) :
    memRead a s = raise f a s := by
  simp [memRead, addrCheck_fault h]

/-- WRITE of an address that exists: the cell written, memory grown to hold it. -/
theorem memWrite_ok {a : Int} {v : Word} (h : addressFault s.params.memLimit a = none) :
    memWrite a v s = .ok () ((s.grow a.toNat).setCell a.toNat v) := by
  simp [memWrite, addrCheck_ok h]

theorem memWrite_fault {a : Int} {v : Word} {f : FaultCode} (h : addressFault s.params.memLimit a = some f) :
    memWrite a v s = raise f a s := by
  simp [memWrite, addrCheck_fault h]

/-- A value in INT64 is the value of its cell (00_scope.md R7). -/
theorem toInt_ofInt {v : Int} (h : in64 v) : (Word.ofInt v).toInt = v := by
  rw [Word.ofInt, BitVec.toInt_ofInt]
  exact Int.bmod_eq_of_le (by omega) (by omega)

/-- Every cell value is in INT64 (00_scope.md R7). -/
theorem in64_toInt (v : Word) : in64 v.toInt := by
  have h1 := BitVec.toInt_lt (x := v)
  have h2 := BitVec.le_toInt (x := v)
  simp only [Nat.add_one_sub_one] at h1 h2
  constructor <;> omega

@[simp] theorem ofInt_toInt (v : Word) : Word.ofInt v.toInt = v := by simp [Word.ofInt]

theorem boolWord_toInt (b : Bool) : (boolWord b).toInt = if b then 1 else 0 := by cases b <;> decide

/-- A jump's condition (44_compare.md R142). -/
theorem truth_eq_true {v : Word} : truth v = true ↔ v ≠ 0 := bne_iff_ne

theorem truth_eq_false {v : Word} : truth v = false ↔ v = 0 := by rw [← Bool.not_eq_true, truth_eq_true, not_not]

/-- ADD and MUL answer the exact result where it fits. -/
theorem alu_some {op : AluOp} {a b : Word} (h : in64 (aluExact op a b)) :
    alu op a b = some (Word.ofInt (aluExact op a b)) := by rw [alu, if_pos h]

theorem alu_none {op : AluOp} {a b : Word} (h : ¬ in64 (aluExact op a b)) : alu op a b = none := by
  rw [alu, if_neg h]

/-- LT and EQ never overflow (R110). -/
theorem alu_lt (a b : Word) : alu .lt a b = some (boolWord (decide (a.toInt < b.toInt))) := by
  rw [alu, aluExact, if_pos (in64_toInt _), ofInt_toInt]

theorem alu_eq (a b : Word) : alu .eq a b = some (boolWord (decide (a.toInt = b.toInt))) := by
  rw [alu, aluExact, if_pos (in64_toInt _), ofInt_toInt]

theorem aluStage_ok {op : AluOp} {a b w r : Word} (h : alu op a b = some r) : aluStage op a b w s = .ok r s := by
  simp [aluStage, h]

theorem aluStage_overflow {op : AluOp} {a b w : Word} (h : alu op a b = none) :
    aluStage op a b w s = raise .overflowError w.toInt s := by
  simp [aluStage, h]

theorem jumpTo_ok {t : Word} (h : 0 ≤ t.toInt) : jumpTo t s = .ok () { s with pc := t.toInt.toNat } := by
  rw [jumpTo, if_neg (by omega)]

theorem jumpTo_negative {t : Word} (h : t.toInt < 0) : jumpTo t s = raise .addressError t.toInt s := by
  rw [jumpTo, if_pos h]

/-! What every stage keeps. A stage ends with memory grown and nothing else changed, or with one fault taken in such a
state: `Reads s r`. It is said once here, and the stages compose by `Reads.bind`. -/

/-- `t` is `s` with memory grown, if at all, within MEM_LIMIT. -/
def Grown (s t : State) : Prop :=
  ∃ n, s.memLen ≤ n ∧ (n ≤ s.params.memLimit ∨ n = s.memLen) ∧ t = { s with memLen := n }

theorem Grown.refl (s : State) : Grown s s := ⟨s.memLen, le_rfl, .inr rfl, rfl⟩

theorem Grown.trans {s t u : State} (h : Grown s t) (h' : Grown t u) : Grown s u := by
  obtain ⟨n, h1, h2, rfl⟩ := h
  obtain ⟨k, h3, h4, rfl⟩ := h'
  simp only at h3 h4
  exact ⟨k, h1.trans h3, by omega, rfl⟩

theorem Grown.grow {a : Nat} (h : a < s.params.memLimit) : Grown s (s.grow a) :=
  ⟨max s.memLen (a + 1), le_max_left .., by omega, grow_eq s a⟩

/-- What a fault raised in a step carries (60_exceptions.md R171): an address or an instruction word, within the range of
`fault_info` (10_state.md R31) in a state whose pc is within its own range. -/
def StepFault (s : State) (f : FaultCode) (info : Int) : Prop :=
  f ≠ .noFault ∧ (s.pc ≤ 9223372036854775808 → -18446744073709551616 ≤ info ∧ info ≤ 18446744073709551614)

/-- The stage only reads: it grows memory, and may then take one fault. -/
def Reads {α : Type} (s : State) (r : Res α) : Prop :=
  match r with
  | .ok _ t => Grown s t
  | .raised u => ∃ t f info, Grown s t ∧ StepFault s f info ∧ u = takeFault f info t

theorem Reads.ok {α : Type} {a : α} {t : State} (h : Grown s t) : Reads s (.ok a t) := h

theorem Reads.raise {α : Type} {f : FaultCode} {info : Int} {t : State} (h : Grown s t) (hf : StepFault s f info) :
    Reads s (raise f info t : Res α) := ⟨t, f, info, h, hf, rfl⟩

theorem Grown.pc_eq {t : State} (h : Grown s t) : t.pc = s.pc := by obtain ⟨n, -, -, rfl⟩ := h; rfl

theorem Reads.weaken {α : Type} {t : State} {r : Res α} (h : Grown s t) (hr : Reads t r) : Reads s r := by
  cases r with
  | ok a u => exact h.trans hr
  | raised u =>
    obtain ⟨v, f, info, hg, hf, rfl⟩ := hr
    exact ⟨v, f, info, h.trans hg, ⟨hf.1, by rw [← h.pc_eq]; exact hf.2⟩, rfl⟩

/-- Stages compose. -/
theorem Reads.bind {α β : Type} {r : Res α} {k : α → State → Res β} (h : Reads s r)
    (hk : ∀ a t, r = .ok a t → Reads t (k a t)) : Reads s (r.bind k) := by
  cases r with
  | ok a t => exact (hk a t rfl).weaken h
  | raised u => exact h

theorem stepFault_word {f : FaultCode} (w : Word) (h : f ≠ .noFault) : StepFault s f w.toInt :=
  ⟨h, fun _ => by have := in64_toInt w; omega⟩

theorem addrCheck_reads {a : Int}
    (h : s.pc ≤ 9223372036854775808 → -18446744073709551616 ≤ a ∧ a ≤ 18446744073709551614) :
    Reads s (addrCheck a s) := by
  cases hf : addressFault s.params.memLimit a with
  | none => rw [addrCheck_ok hf]; exact .ok (.refl s)
  | some f =>
    rw [addrCheck_fault hf]
    refine .raise (.refl s) ⟨?_, h⟩
    rcases addressFault_eq_some hf with ⟨rfl, -⟩ | ⟨rfl, -⟩ <;> simp

theorem memRead_reads {a : Int}
    (h : s.pc ≤ 9223372036854775808 → -18446744073709551616 ≤ a ∧ a ≤ 18446744073709551614) :
    Reads s (memRead a s) := by
  refine (addrCheck_reads h).bind fun n t ht => ?_
  cases hf : addressFault s.params.memLimit a with
  | none =>
    rw [addrCheck_ok hf] at ht
    obtain ⟨rfl, rfl⟩ : a.toNat = n ∧ s = t := by simpa using ht
    have := addressFault_eq_none.mp hf
    exact .ok (.grow (by omega))
  | some f => simp [addrCheck_fault hf, Machine.raise] at ht

end Sys2Proof.Machine
end

