-- ==== Sys2Proof/Laws/PerInstr.lean ====
section
/-! SUPPORT. Facts about every instruction as syntax, one lemma a constructor: where an instruction word keeps its fields
(30_encoding.md R60), and that a well-formed instruction's word is in INT64. -/

namespace Sys2Proof.Laws

@[simp] theorem ofDigit_toDigit (m : Mode) : Mode.ofDigit m.toDigit = some m := by cases m <;> rfl

theorem toDigit_le (m : Mode) : m.toDigit ≤ 2 := by cases m <;> decide

/-- The digits of the word are the fields of the instruction. -/
def Digits.Statement (i : Instr) : Prop :=
  encodeNat i % 100 = i.opcode ∧
  (1 ≤ i.operandCount → digit 2 (encodeNat i) = i.modes.1.toDigit) ∧
  (2 ≤ i.operandCount → digit 3 (encodeNat i) = i.modes.2.1.toDigit) ∧
  (3 ≤ i.operandCount → digit 4 (encodeNat i) = i.modes.2.2.toDigit) ∧
  encodeNat i / 10 ^ (i.operandCount + 2) = i.excess

/-- `digit` at the weights of the mode fields. -/
theorem digit_two (w : Nat) : digit 2 w = w / 100 % 10 := rfl
theorem digit_three (w : Nat) : digit 3 w = w / 1000 % 10 := rfl
theorem digit_four (w : Nat) : digit 4 w = w / 10000 % 10 := rfl

/-- The fields of a word of three mode digits: opcode, modes, excess. -/
theorem fields_three {opcode d1 d2 d3 x : Nat} (ho : opcode < 100) (h1 : d1 ≤ 2) (h2 : d2 ≤ 2) (h3 : d3 ≤ 2) :
    (opcode + 100 * d1 + 1000 * d2 + 10000 * d3 + 100000 * x) % 100 = opcode ∧
    (opcode + 100 * d1 + 1000 * d2 + 10000 * d3 + 100000 * x) / 100 % 10 = d1 ∧
    (opcode + 100 * d1 + 1000 * d2 + 10000 * d3 + 100000 * x) / 1000 % 10 = d2 ∧
    (opcode + 100 * d1 + 1000 * d2 + 10000 * d3 + 100000 * x) / 10000 % 10 = d3 ∧
    (opcode + 100 * d1 + 1000 * d2 + 10000 * d3 + 100000 * x) / 100000 = x := by
  refine ⟨?_, ?_, ?_, ?_, ?_⟩ <;> omega

theorem fields_two {opcode d1 d2 x : Nat} (ho : opcode < 100) (h1 : d1 ≤ 2) (h2 : d2 ≤ 2) :
    (opcode + 100 * d1 + 1000 * d2 + 10000 * x) % 100 = opcode ∧
    (opcode + 100 * d1 + 1000 * d2 + 10000 * x) / 100 % 10 = d1 ∧
    (opcode + 100 * d1 + 1000 * d2 + 10000 * x) / 1000 % 10 = d2 ∧
    (opcode + 100 * d1 + 1000 * d2 + 10000 * x) / 10000 = x := by
  refine ⟨?_, ?_, ?_, ?_⟩ <;> omega

theorem fields_one {opcode d1 x : Nat} (ho : opcode < 100) (h1 : d1 ≤ 2) :
    (opcode + 100 * d1 + 1000 * x) % 100 = opcode ∧
    (opcode + 100 * d1 + 1000 * x) / 100 % 10 = d1 ∧
    (opcode + 100 * d1 + 1000 * x) / 1000 = x := by
  refine ⟨?_, ?_, ?_⟩ <;> omega

theorem Digits.add (m1 m2 m3 : Mode) (x : Nat) : Digits.Statement (.add m1 m2 m3 x) := by
  have h := fields_three (x := x) (show 1 < 100 by omega) (toDigit_le m1) (toDigit_le m2) (toDigit_le m3)
  simp only [Digits.Statement, encodeNat, Instr.opcode, Instr.operandCount, Instr.modes, Instr.excess, digit_two,
    digit_three, digit_four, Nat.reduceAdd, Nat.reducePow]
  exact ⟨h.1, fun _ => h.2.1, fun _ => h.2.2.1, fun _ => h.2.2.2.1, h.2.2.2.2⟩

theorem Digits.multiply (m1 m2 m3 : Mode) (x : Nat) : Digits.Statement (.multiply m1 m2 m3 x) := by
  have h := fields_three (x := x) (show 2 < 100 by omega) (toDigit_le m1) (toDigit_le m2) (toDigit_le m3)
  simp only [Digits.Statement, encodeNat, Instr.opcode, Instr.operandCount, Instr.modes, Instr.excess, digit_two,
    digit_three, digit_four, Nat.reduceAdd, Nat.reducePow]
  exact ⟨h.1, fun _ => h.2.1, fun _ => h.2.2.1, fun _ => h.2.2.2.1, h.2.2.2.2⟩

theorem Digits.lessThan (m1 m2 m3 : Mode) (x : Nat) : Digits.Statement (.lessThan m1 m2 m3 x) := by
  have h := fields_three (x := x) (show 7 < 100 by omega) (toDigit_le m1) (toDigit_le m2) (toDigit_le m3)
  simp only [Digits.Statement, encodeNat, Instr.opcode, Instr.operandCount, Instr.modes, Instr.excess, digit_two,
    digit_three, digit_four, Nat.reduceAdd, Nat.reducePow]
  exact ⟨h.1, fun _ => h.2.1, fun _ => h.2.2.1, fun _ => h.2.2.2.1, h.2.2.2.2⟩

theorem Digits.equals (m1 m2 m3 : Mode) (x : Nat) : Digits.Statement (.equals m1 m2 m3 x) := by
  have h := fields_three (x := x) (show 8 < 100 by omega) (toDigit_le m1) (toDigit_le m2) (toDigit_le m3)
  simp only [Digits.Statement, encodeNat, Instr.opcode, Instr.operandCount, Instr.modes, Instr.excess, digit_two,
    digit_three, digit_four, Nat.reduceAdd, Nat.reducePow]
  exact ⟨h.1, fun _ => h.2.1, fun _ => h.2.2.1, fun _ => h.2.2.2.1, h.2.2.2.2⟩

theorem Digits.jumpIfTrue (m1 m2 : Mode) (x : Nat) : Digits.Statement (.jumpIfTrue m1 m2 x) := by
  have h := fields_two (x := x) (show 5 < 100 by omega) (toDigit_le m1) (toDigit_le m2)
  simp only [Digits.Statement, encodeNat, Instr.opcode, Instr.operandCount, Instr.modes, Instr.excess, digit_two,
    digit_three, digit_four, Nat.reduceAdd, Nat.reducePow]
  exact ⟨h.1, fun _ => h.2.1, fun _ => h.2.2.1, fun hc => absurd hc (by omega), h.2.2.2⟩

theorem Digits.jumpIfFalse (m1 m2 : Mode) (x : Nat) : Digits.Statement (.jumpIfFalse m1 m2 x) := by
  have h := fields_two (x := x) (show 6 < 100 by omega) (toDigit_le m1) (toDigit_le m2)
  simp only [Digits.Statement, encodeNat, Instr.opcode, Instr.operandCount, Instr.modes, Instr.excess, digit_two,
    digit_three, digit_four, Nat.reduceAdd, Nat.reducePow]
  exact ⟨h.1, fun _ => h.2.1, fun _ => h.2.2.1, fun hc => absurd hc (by omega), h.2.2.2⟩

theorem Digits.input (m1 : Mode) (x : Nat) : Digits.Statement (.input m1 x) := by
  have h := fields_one (x := x) (show 3 < 100 by omega) (toDigit_le m1)
  simp only [Digits.Statement, encodeNat, Instr.opcode, Instr.operandCount, Instr.modes, Instr.excess, digit_two,
    digit_three, digit_four, Nat.reduceAdd, Nat.reducePow]
  exact ⟨h.1, fun _ => h.2.1, fun hc => absurd hc (by omega), fun hc => absurd hc (by omega), h.2.2⟩

theorem Digits.output (m1 : Mode) (x : Nat) : Digits.Statement (.output m1 x) := by
  have h := fields_one (x := x) (show 4 < 100 by omega) (toDigit_le m1)
  simp only [Digits.Statement, encodeNat, Instr.opcode, Instr.operandCount, Instr.modes, Instr.excess, digit_two,
    digit_three, digit_four, Nat.reduceAdd, Nat.reducePow]
  exact ⟨h.1, fun _ => h.2.1, fun hc => absurd hc (by omega), fun hc => absurd hc (by omega), h.2.2⟩

theorem Digits.setRelativeBase (m1 : Mode) (x : Nat) : Digits.Statement (.setRelativeBase m1 x) := by
  have h := fields_one (x := x) (show 9 < 100 by omega) (toDigit_le m1)
  simp only [Digits.Statement, encodeNat, Instr.opcode, Instr.operandCount, Instr.modes, Instr.excess, digit_two,
    digit_three, digit_four, Nat.reduceAdd, Nat.reducePow]
  exact ⟨h.1, fun _ => h.2.1, fun hc => absurd hc (by omega), fun hc => absurd hc (by omega), h.2.2⟩

theorem Digits.terminate (x : Nat) : Digits.Statement (.terminate x) := by
  simp only [Digits.Statement, encodeNat, Instr.opcode, Instr.operandCount, Instr.modes, Instr.excess, digit_two,
    digit_three, digit_four, Nat.reduceAdd, Nat.reducePow]
  exact ⟨by omega, fun hc => absurd hc (by omega), fun hc => absurd hc (by omega), fun hc => absurd hc (by omega), by omega⟩

/-- A well-formed instruction's word is in INT64. -/
def WordFits.Statement (i : Instr) : Prop :=
  ∀ strict, i.wellFormed strict = true → encodeNat i ≤ 9223372036854775807

theorem excessFits_le {strict : Bool} {most x : Nat} (h : excessFits strict most x = true) : x ≤ most := by
  cases strict <;> simp [excessFits] at h <;> omega

theorem WordFits.add (m1 m2 m3 : Mode) (x : Nat) : WordFits.Statement (.add m1 m2 m3 x) := by
  intro strict h
  have := excessFits_le (Bool.and_eq_true _ _ ▸ h).2
  have := toDigit_le m1; have := toDigit_le m2; have := toDigit_le m3
  simp only [encodeNat]; omega

theorem WordFits.multiply (m1 m2 m3 : Mode) (x : Nat) : WordFits.Statement (.multiply m1 m2 m3 x) := by
  intro strict h
  have := excessFits_le (Bool.and_eq_true _ _ ▸ h).2
  have := toDigit_le m1; have := toDigit_le m2; have := toDigit_le m3
  simp only [encodeNat]; omega

theorem WordFits.lessThan (m1 m2 m3 : Mode) (x : Nat) : WordFits.Statement (.lessThan m1 m2 m3 x) := by
  intro strict h
  have := excessFits_le (Bool.and_eq_true _ _ ▸ h).2
  have := toDigit_le m1; have := toDigit_le m2; have := toDigit_le m3
  simp only [encodeNat]; omega

theorem WordFits.equals (m1 m2 m3 : Mode) (x : Nat) : WordFits.Statement (.equals m1 m2 m3 x) := by
  intro strict h
  have := excessFits_le (Bool.and_eq_true _ _ ▸ h).2
  have := toDigit_le m1; have := toDigit_le m2; have := toDigit_le m3
  simp only [encodeNat]; omega

theorem WordFits.jumpIfTrue (m1 m2 : Mode) (x : Nat) : WordFits.Statement (.jumpIfTrue m1 m2 x) := by
  intro strict h
  have := excessFits_le h
  have := toDigit_le m1; have := toDigit_le m2
  simp only [encodeNat]; omega

theorem WordFits.jumpIfFalse (m1 m2 : Mode) (x : Nat) : WordFits.Statement (.jumpIfFalse m1 m2 x) := by
  intro strict h
  have := excessFits_le h
  have := toDigit_le m1; have := toDigit_le m2
  simp only [encodeNat]; omega

theorem WordFits.input (m1 : Mode) (x : Nat) : WordFits.Statement (.input m1 x) := by
  intro strict h
  have := excessFits_le (Bool.and_eq_true _ _ ▸ h).2
  have := toDigit_le m1
  simp only [encodeNat]; omega

theorem WordFits.output (m1 : Mode) (x : Nat) : WordFits.Statement (.output m1 x) := by
  intro strict h
  have := excessFits_le h
  have := toDigit_le m1
  simp only [encodeNat]; omega

theorem WordFits.setRelativeBase (m1 : Mode) (x : Nat) : WordFits.Statement (.setRelativeBase m1 x) := by
  intro strict h
  have := excessFits_le h
  have := toDigit_le m1
  simp only [encodeNat]; omega

theorem WordFits.terminate (x : Nat) : WordFits.Statement (.terminate x) := by
  intro strict h
  have := excessFits_le h
  simp only [encodeNat]; omega

/-- Both facts for every instruction. -/
theorem digits (i : Instr) : Digits.Statement i := by
  cases i
  case add => apply Digits.add
  case multiply => apply Digits.multiply
  case input => apply Digits.input
  case output => apply Digits.output
  case jumpIfTrue => apply Digits.jumpIfTrue
  case jumpIfFalse => apply Digits.jumpIfFalse
  case lessThan => apply Digits.lessThan
  case equals => apply Digits.equals
  case setRelativeBase => apply Digits.setRelativeBase
  case terminate => apply Digits.terminate

theorem wordFits (i : Instr) : WordFits.Statement i := by
  cases i
  case add => apply WordFits.add
  case multiply => apply WordFits.multiply
  case input => apply WordFits.input
  case output => apply WordFits.output
  case jumpIfTrue => apply WordFits.jumpIfTrue
  case jumpIfFalse => apply WordFits.jumpIfFalse
  case lessThan => apply WordFits.lessThan
  case equals => apply WordFits.equals
  case setRelativeBase => apply WordFits.setRelativeBase
  case terminate => apply WordFits.terminate

end Sys2Proof.Laws
end

