-- ==== Sys2Proof/Laws/Decode.lean ====
section
/-! SUPPORT. The decoder's formats: when each answers an instruction, and the value of an encoded word
(30_encoding.md R70). -/

namespace Sys2Proof.Laws

theorem encode_toNat {strict : Bool} {i : Instr} (h : i.wellFormed strict = true) : (encode i).toNat = encodeNat i := by
  have := wordFits i strict h
  simp only [encode, BitVec.toNat_ofNat]
  omega

theorem encode_toInt {strict : Bool} {i : Instr} (h : i.wellFormed strict = true) :
    (encode i).toInt = (encodeNat i : Int) := by
  have := wordFits i strict h
  rw [BitVec.toInt_eq_toNat_cond, encode_toNat h, if_pos (by omega)]

/-- A word that is not negative has its integer as its natural number. -/
theorem toInt_of_nonneg {w : Word} (h : 0 ≤ w.toInt) : w.toInt = (w.toNat : Int) ∧ w.toNat ≤ 9223372036854775807 := by
  have := BitVec.toInt_eq_toNat_cond w
  have := w.isLt
  split at * <;> omega

theorem ofDigit_some {d : Nat} {m : Mode} (h : Mode.ofDigit d = some m) : d = m.toDigit := by
  unfold Mode.ofDigit at h
  split at h <;> simp at h <;> subst h <;> rfl

theorem ofDigit_none {d : Nat} : Mode.ofDigit d = none ↔ 3 ≤ d := by
  match d with
  | 0 => decide
  | 1 => decide
  | 2 => decide
  | d + 3 => simp [Mode.ofDigit]

/-- No excess digits, or the decoder is not strict. -/
abbrev NoExcess (strict : Bool) (x : Nat) : Prop := (strict && x != 0) = false

theorem decodeF3W_ok {strict : Bool} {make : Mode → Mode → Mode → Nat → Instr} {w : Nat} {i : Instr}
    (h : decodeF3W strict make w = .ok i) :
    ∃ m1 m2 m3, digit 2 w = m1.toDigit ∧ digit 3 w = m2.toDigit ∧ digit 4 w = m3.toDigit ∧
      NoExcess strict (w / 100000) ∧ m3 ≠ .immediate ∧ i = make m1 m2 m3 (w / 100000) := by
  unfold decodeF3W at h
  split at h
  · next m1 m2 m3 h1 h2 h3 =>
    simp only [Nat.reducePow] at h
    split at h
    · simp at h
    · next hx =>
      split at h
      · simp at h
      · next hm => exact ⟨m1, m2, m3, ofDigit_some h1, ofDigit_some h2, ofDigit_some h3, by simpa using hx, hm, by simpa using h.symm⟩
  · simp at h

theorem decodeF2R_ok {strict : Bool} {make : Mode → Mode → Nat → Instr} {w : Nat} {i : Instr}
    (h : decodeF2R strict make w = .ok i) :
    ∃ m1 m2, digit 2 w = m1.toDigit ∧ digit 3 w = m2.toDigit ∧
      NoExcess strict (w / 10000) ∧ i = make m1 m2 (w / 10000) := by
  unfold decodeF2R at h
  split at h
  · next m1 m2 h1 h2 =>
    simp only [Nat.reducePow] at h
    split at h
    · simp at h
    · next hx => exact ⟨m1, m2, ofDigit_some h1, ofDigit_some h2, by simpa using hx, by simpa using h.symm⟩
  · simp at h

theorem decodeF1R_ok {strict : Bool} {make : Mode → Nat → Instr} {w : Nat} {i : Instr}
    (h : decodeF1R strict make w = .ok i) :
    ∃ m1, digit 2 w = m1.toDigit ∧ NoExcess strict (w / 1000) ∧ i = make m1 (w / 1000) := by
  unfold decodeF1R at h
  split at h
  · next m1 h1 =>
    simp only [Nat.reducePow] at h
    split at h
    · simp at h
    · next hx => exact ⟨m1, ofDigit_some h1, by simpa using hx, by simpa using h.symm⟩
  · simp at h

theorem decodeF1W_ok {strict : Bool} {make : Mode → Nat → Instr} {w : Nat} {i : Instr}
    (h : decodeF1W strict make w = .ok i) :
    ∃ m1, digit 2 w = m1.toDigit ∧ NoExcess strict (w / 1000) ∧ m1 ≠ .immediate ∧ i = make m1 (w / 1000) := by
  unfold decodeF1W at h
  split at h
  · next m1 h1 =>
    simp only [Nat.reducePow] at h
    split at h
    · simp at h
    · next hx =>
      split at h
      · simp at h
      · next hm => exact ⟨m1, ofDigit_some h1, by simpa using hx, hm, by simpa using h.symm⟩
  · simp at h

theorem decodeF0_ok {strict : Bool} {make : Nat → Instr} {w : Nat} {i : Instr} (h : decodeF0 strict make w = .ok i) :
    NoExcess strict (w / 100) ∧ i = make (w / 100) := by
  unfold decodeF0 at h
  simp only [Nat.reducePow] at h
  split at h
  · simp at h
  · next hx => exact ⟨by simpa using hx, by simpa using h.symm⟩

/-- A word that decodes is not negative. -/
theorem decode_ok {strict : Bool} {w : Word} {i : Instr} (h : decode strict w = .ok i) :
    0 ≤ w.toInt ∧ decodeNat strict w.toNat = .ok i := by
  unfold decode at h
  split at h
  · simp at h
  · exact ⟨by omega, h⟩

/-- The opcode of a decoded instruction is the word's low two digits. -/
theorem decodeNat_opcode {strict : Bool} {w : Nat} {i : Instr} (h : decodeNat strict w = .ok i) :
    w % 100 = i.opcode := by
  unfold decodeNat at h
  split at h
  case h_1 hw => obtain ⟨_, _, _, -, -, -, -, -, rfl⟩ := decodeF3W_ok h; exact hw
  case h_2 hw => obtain ⟨_, _, _, -, -, -, -, -, rfl⟩ := decodeF3W_ok h; exact hw
  case h_3 hw => obtain ⟨_, -, -, -, rfl⟩ := decodeF1W_ok h; exact hw
  case h_4 hw => obtain ⟨_, -, -, rfl⟩ := decodeF1R_ok h; exact hw
  case h_5 hw => obtain ⟨_, _, -, -, -, rfl⟩ := decodeF2R_ok h; exact hw
  case h_6 hw => obtain ⟨_, _, -, -, -, rfl⟩ := decodeF2R_ok h; exact hw
  case h_7 hw => obtain ⟨_, _, _, -, -, -, -, -, rfl⟩ := decodeF3W_ok h; exact hw
  case h_8 hw => obtain ⟨_, _, _, -, -, -, -, -, rfl⟩ := decodeF3W_ok h; exact hw
  case h_9 hw => obtain ⟨_, -, -, rfl⟩ := decodeF1R_ok h; exact hw
  case h_10 hw => obtain ⟨-, rfl⟩ := decodeF0_ok h; exact hw
  case h_11 => simp at h

end Sys2Proof.Laws
end

