-- ==== Sys2Proof/Laws/Operands.lean ====
section
/-! SUPPORT. Operand resolution and the operand stages: what they answer where every address exists, and that they only
read (40_execution_cycle.md R80 to R82, R85). -/

namespace Sys2Proof.Machine

variable {s : State}

/-- A relative or position address is within 65 signed bits (40_execution_cycle.md R81). -/
theorem operandAddr_range {m : Mode} {rb raw : Word} {a : Int} (h : operandAddr m rb raw = some a) :
    -18446744073709551616 ≤ a ∧ a ≤ 18446744073709551614 := by
  have h1 := in64_toInt rb
  have h2 := in64_toInt raw
  cases m <;> simp [operandAddr] at h <;> omega

theorem operandAddr_immediate {m : Mode} {rb raw : Word} : operandAddr m rb raw = none ↔ m = .immediate := by
  cases m <;> simp [operandAddr]

theorem fetchRaw_ok {k : Nat} (h : s.pc + k < s.params.memLimit) :
    fetchRaw k s = .ok (s.raw k) { s with memLen := max s.memLen (s.pc + k + 1) } := by
  rw [fetchRaw, memRead_ok (addressFault_natCast h), grow_eq]
  rfl

theorem fetchRaw_capacity {k : Nat} (h : s.params.memLimit ≤ s.pc + k) :
    fetchRaw k s = raise .capacityError ((s.pc + k : Nat) : Int) s := by
  simp only [fetchRaw]
  exact memRead_fault (addressFault_natCast_ge h)

theorem resolveRead_ok {m : Mode} {k : Nat} (h : s.reachable m k) :
    resolveRead m (s.raw k) s = .ok (s.operand m k) { s with memLen := max s.memLen (s.reach m k) } := by
  unfold resolveRead State.operand State.reach
  cases ha : operandAddr m s.rb (s.raw k) with
  | none => simp
  | some a => simp [memRead_ok (h a ha), grow_eq]

theorem resolveRead_fault {m : Mode} {k : Nat} {a : Int} {f : FaultCode} (ha : operandAddr m s.rb (s.raw k) = some a)
    (hf : addressFault s.params.memLimit a = some f) : resolveRead m (s.raw k) s = raise f a s := by
  simp [resolveRead, ha, memRead_fault hf]

theorem target_some {m : Mode} {k t : Nat} (h : s.target m k = some t) :
    operandAddr m s.rb (s.raw k) = some (t : Int) ∧ t < s.params.memLimit := by
  unfold State.target at h
  split at h
  · next a ha =>
    split at h
    · next hf =>
      have := addressFault_eq_none.mp hf
      obtain rfl : a.toNat = t := by simpa using h
      exact ⟨by rw [ha]; congr 1; omega, by omega⟩
    · simp at h
  · simp at h

theorem resolveWrite_ok {m : Mode} {k t : Nat} {w : Word} (h : s.target m k = some t) :
    resolveWrite m (s.raw k) w s = .ok t s := by
  obtain ⟨ha, ht⟩ := target_some h
  simp [resolveWrite, ha, addrCheck_ok (addressFault_natCast ht)]

/-- The operand stages see a state that differs from `s` in `mem_len` only, so every operand is that of `s`. -/
theorem operandsF3W_ok {m1 m2 m3 : Mode} {w : Word} {t : Nat} (hr : s.rawsExist 3) (h1 : s.reachable m1 1)
    (h2 : s.reachable m2 2) (h3 : s.target m3 3 = some t) :
    operandsF3W m1 m2 m3 w s = .ok (s.operand m1 1, s.operand m2 2, t) { s with memLen := s.lenReads 3 m1 m2 } := by
  have l1 := fetchRaw_ok (s := s) (k := 1) (by omega)
  have l2 := fetchRaw_ok (s := { s with memLen := max s.memLen (s.pc + 1 + 1) }) (k := 2) (by simp; omega)
  have l3 := fetchRaw_ok (s := { s with memLen := max (max s.memLen (s.pc + 1 + 1)) (s.pc + 2 + 1) }) (k := 3)
    (by simp; omega)
  have e1 := resolveRead_ok (s := { s with memLen := s.lenRaws 3 }) (m := m1) (k := 1) h1
  have e2 := resolveRead_ok (s := { s with memLen := max (s.lenRaws 3) (s.reach m1 1) }) (m := m2) (k := 2) h2
  have e3 := resolveWrite_ok (s := { s with memLen := s.lenReads 3 m1 m2 }) (m := m3) (k := 3) (w := w) h3
  have hlen : max (max (max s.memLen (s.pc + 1 + 1)) (s.pc + 2 + 1)) (s.pc + 3 + 1) = s.lenRaws 3 := by
    simp only [State.lenRaws]; omega
  simp only [operandsF3W, l1, bind_ok]
  simp only [State.raw, State.cell, State.operand, State.reach, State.lenReads] at *
  simp only [l2, l3, hlen, e1, e2, e3, bind_ok]

theorem operandsF2R_ok {m1 m2 : Mode} (hr : s.rawsExist 2) (h1 : s.reachable m1 1) (h2 : s.reachable m2 2) :
    operandsF2R m1 m2 s = .ok (s.operand m1 1, s.operand m2 2) { s with memLen := s.lenReads 2 m1 m2 } := by
  have l1 := fetchRaw_ok (s := s) (k := 1) (by omega)
  have l2 := fetchRaw_ok (s := { s with memLen := max s.memLen (s.pc + 1 + 1) }) (k := 2) (by simp; omega)
  have e1 := resolveRead_ok (s := { s with memLen := s.lenRaws 2 }) (m := m1) (k := 1) h1
  have e2 := resolveRead_ok (s := { s with memLen := max (s.lenRaws 2) (s.reach m1 1) }) (m := m2) (k := 2) h2
  have hlen : max (max s.memLen (s.pc + 1 + 1)) (s.pc + 2 + 1) = s.lenRaws 2 := by
    simp only [State.lenRaws]; omega
  simp only [operandsF2R, l1, bind_ok]
  simp only [State.raw, State.cell, State.operand, State.reach, State.lenReads] at *
  simp only [l2, hlen, e1, e2, bind_ok]

theorem operandF1R_ok {m1 : Mode} (hr : s.rawsExist 1) (h1 : s.reachable m1 1) :
    operandF1R m1 s = .ok (s.operand m1 1) { s with memLen := s.lenF1R m1 } := by
  have l1 := fetchRaw_ok (s := s) (k := 1) hr
  have e1 := resolveRead_ok (s := { s with memLen := s.lenRaws 1 }) (m := m1) (k := 1) h1
  simp only [operandF1R, l1, bind_ok]
  exact e1

theorem operandF1W_ok {m1 : Mode} {w : Word} {t : Nat} (hr : s.rawsExist 1) (h1 : s.target m1 1 = some t) :
    operandF1W m1 w s = .ok t { s with memLen := s.lenRaws 1 } := by
  have l1 := fetchRaw_ok (s := s) (k := 1) hr
  have e1 := resolveWrite_ok (s := { s with memLen := s.lenRaws 1 }) (m := m1) (k := 1) (w := w) h1
  simp only [operandF1W, l1, bind_ok]
  exact e1

/-! The operand stages only read. -/

theorem fetchRaw_reads (k : Nat) (hk : k ≤ 3) (s : State) : Reads s (fetchRaw k s) :=
  memRead_reads fun _ => by omega

theorem resolveRead_reads (m : Mode) (raw : Word) (s : State) : Reads s (resolveRead m raw s) := by
  unfold resolveRead
  split
  · next a ha => exact memRead_reads fun _ => operandAddr_range ha
  · exact .ok (.refl s)

theorem resolveWrite_reads (m : Mode) (raw w : Word) (s : State) : Reads s (resolveWrite m raw w s) := by
  unfold resolveWrite
  split
  · next a ha => exact addrCheck_reads fun _ => operandAddr_range ha
  · exact .raise (.refl s) (stepFault_word w (by simp))

theorem operandsF3W_reads (m1 m2 m3 : Mode) (w : Word) (s : State) : Reads s (operandsF3W m1 m2 m3 w s) :=
  (fetchRaw_reads 1 (by omega) s).bind fun r1 s1 _ => (fetchRaw_reads 2 (by omega) s1).bind fun r2 s2 _ =>
    (fetchRaw_reads 3 (by omega) s2).bind fun r3 s3 _ => (resolveRead_reads m1 r1 s3).bind fun _ s4 _ =>
      (resolveRead_reads m2 r2 s4).bind fun _ s5 _ => (resolveWrite_reads m3 r3 w s5).bind fun _ s6 _ => .ok (.refl s6)

theorem operandsF2R_reads (m1 m2 : Mode) (s : State) : Reads s (operandsF2R m1 m2 s) :=
  (fetchRaw_reads 1 (by omega) s).bind fun r1 s1 _ => (fetchRaw_reads 2 (by omega) s1).bind fun r2 s2 _ =>
    (resolveRead_reads m1 r1 s2).bind fun _ s3 _ => (resolveRead_reads m2 r2 s3).bind fun _ s4 _ => .ok (.refl s4)

theorem operandF1R_reads (m1 : Mode) (s : State) : Reads s (operandF1R m1 s) :=
  (fetchRaw_reads 1 (by omega) s).bind fun r1 s1 _ => resolveRead_reads m1 r1 s1

theorem operandF1W_reads (m1 : Mode) (w : Word) (s : State) : Reads s (operandF1W m1 w s) :=
  (fetchRaw_reads 1 (by omega) s).bind fun r1 s1 _ => resolveWrite_reads m1 r1 w s1

theorem aluStage_reads (op : AluOp) (a b w : Word) (s : State) : Reads s (aluStage op a b w s) := by
  unfold aluStage
  split
  · exact .ok (.refl s)
  · exact .raise (.refl s) (stepFault_word w (by simp))

/-- Fetch and decode only read (R85). -/
theorem fetchDecode_reads (s : State) : Reads s (fetchDecode s) := by
  refine (memRead_reads fun _ => by omega).bind fun w t _ => ?_
  split
  · exact .ok (.refl t)
  · next e _ => exact .raise (.refl t) (stepFault_word w (by cases e <;> simp [faultOfDecodeError]))

/-- Fetch and decode where the word exists: the decoder's answer, memory grown to hold the word. -/
theorem fetchDecode_ok (h : s.pc < s.params.memLimit) :
    fetchDecode s = match decode s.params.strictModeDigits (s.cell s.pc) with
      | .ok i => .ok i (s.grow s.pc)
      | .error e => raise (faultOfDecodeError e) (s.cell s.pc).toInt (s.grow s.pc) := by
  cases hd : decode s.params.strictModeDigits (s.cell s.pc) <;>
    simp [fetchDecode, memRead_ok (addressFault_natCast h), hd]

end Sys2Proof.Machine
end

