-- ==== Sys2Proof/Laws/Exec.lean ====
section
/-! SUPPORT. The shared instruction shapes: what each answers when its operands exist, and every way it can end
(40_execution_cycle.md R85, R87; 60_exceptions.md R181). -/

namespace Sys2Proof.Machine

variable {s : State}

/-! Inversions: a stage that answered a value had its addresses. -/

theorem bind_eq_ok {α β : Type} {r : Res α} {k : α → State → Res β} {b : β} {t : State} (h : r.bind k = .ok b t) :
    ∃ a u, r = .ok a u ∧ k a u = .ok b t := by
  cases r with
  | ok a u => exact ⟨a, u, rfl, h⟩
  | raised u => simp at h

theorem memRead_inv {a : Int} {v : Word} {t : State} (h : memRead a s = .ok v t) :
    addressFault s.params.memLimit a = none := by
  cases hf : addressFault s.params.memLimit a with
  | none => rfl
  | some f => simp [memRead_fault hf, raise] at h

theorem fetchRaw_inv {k : Nat} {v : Word} {t : State} (h : fetchRaw k s = .ok v t) :
    s.pc + k < s.params.memLimit ∧ v = s.raw k ∧ t = { s with memLen := max s.memLen (s.pc + k + 1) } := by
  have hk : s.pc + k < s.params.memLimit := by
    have := addressFault_eq_none.mp (memRead_inv h)
    omega
  rw [fetchRaw_ok hk] at h
  simp only [Res.ok.injEq] at h
  exact ⟨hk, h.1.symm, h.2.symm⟩

theorem resolveRead_inv {m : Mode} {raw v : Word} {t : State} (h : resolveRead m raw s = .ok v t) :
    (∀ a ∈ operandAddr m s.rb raw, addressFault s.params.memLimit a = none) ∧ ∃ n, t = { s with memLen := n } := by
  unfold resolveRead at h
  split at h
  · next a ha =>
    have hf := memRead_inv h
    rw [memRead_ok hf, grow_eq] at h
    simp only [Res.ok.injEq] at h
    exact ⟨by rw [ha]; intro b hb; obtain rfl : a = b := by simpa using hb
              exact hf, _, h.2.symm⟩
  · next ha =>
    simp only [Res.ok.injEq] at h
    exact ⟨by simp [ha], s.memLen, h.2.symm⟩

theorem resolveWrite_inv {m : Mode} {raw w : Word} {n : Nat} {t : State} (h : resolveWrite m raw w s = .ok n t) :
    ∃ a, operandAddr m s.rb raw = some a ∧ addressFault s.params.memLimit a = none ∧ n = a.toNat := by
  unfold resolveWrite at h
  split at h
  · next a ha =>
    cases hf : addressFault s.params.memLimit a with
    | none =>
      rw [addrCheck_ok hf] at h
      simp only [Res.ok.injEq] at h
      exact ⟨a, ha, hf, h.1.symm⟩
    | some f => simp [addrCheck_fault hf, raise] at h
  · simp [raise] at h

theorem operandsF3W_inv {m1 m2 m3 : Mode} {w : Word} {o : Word × Word × Nat} {t : State}
    (h : operandsF3W m1 m2 m3 w s = .ok o t) :
    s.rawsExist 3 ∧ s.reachable m1 1 ∧ s.reachable m2 2 ∧ s.target m3 3 = some o.2.2 := by
  obtain ⟨_, _, h1, h⟩ := bind_eq_ok h
  obtain ⟨-, rfl, rfl⟩ := fetchRaw_inv h1
  obtain ⟨_, _, h2, h⟩ := bind_eq_ok h
  obtain ⟨-, rfl, rfl⟩ := fetchRaw_inv h2
  obtain ⟨_, _, h3, h⟩ := bind_eq_ok h
  obtain ⟨hr, rfl, rfl⟩ := fetchRaw_inv h3
  obtain ⟨_, _, h4, h⟩ := bind_eq_ok h
  obtain ⟨ha, _, rfl⟩ := resolveRead_inv h4
  obtain ⟨_, _, h5, h⟩ := bind_eq_ok h
  obtain ⟨hb, _, rfl⟩ := resolveRead_inv h5
  obtain ⟨_, _, h6, h⟩ := bind_eq_ok h
  obtain ⟨a, hc, hf, rfl⟩ := resolveWrite_inv h6
  simp only [Res.ok.injEq] at h
  refine ⟨hr, ha, hb, ?_⟩
  have hc' : operandAddr m3 s.rb (s.raw 3) = some a := hc
  simp only [State.target, hc', if_pos hf, ← h.1]

theorem operandsF2R_inv {m1 m2 : Mode} {o : Word × Word} {t : State} (h : operandsF2R m1 m2 s = .ok o t) :
    s.rawsExist 2 ∧ s.reachable m1 1 ∧ s.reachable m2 2 := by
  obtain ⟨_, _, h1, h⟩ := bind_eq_ok h
  obtain ⟨-, rfl, rfl⟩ := fetchRaw_inv h1
  obtain ⟨_, _, h2, h⟩ := bind_eq_ok h
  obtain ⟨hr, rfl, rfl⟩ := fetchRaw_inv h2
  obtain ⟨_, _, h3, h⟩ := bind_eq_ok h
  obtain ⟨ha, _, rfl⟩ := resolveRead_inv h3
  obtain ⟨_, _, h4, -⟩ := bind_eq_ok h
  exact ⟨hr, ha, (resolveRead_inv h4).1⟩

theorem operandF1R_inv {m1 : Mode} {v : Word} {t : State} (h : operandF1R m1 s = .ok v t) :
    s.rawsExist 1 ∧ s.reachable m1 1 := by
  obtain ⟨_, _, h1, h⟩ := bind_eq_ok h
  obtain ⟨hr, rfl, rfl⟩ := fetchRaw_inv h1
  exact ⟨hr, (resolveRead_inv h).1⟩

theorem operandF1W_inv {m1 : Mode} {w : Word} {n : Nat} {t : State} (h : operandF1W m1 w s = .ok n t) :
    s.rawsExist 1 ∧ s.target m1 1 = some n := by
  obtain ⟨_, _, h1, h⟩ := bind_eq_ok h
  obtain ⟨hr, rfl, rfl⟩ := fetchRaw_inv h1
  obtain ⟨a, hc, hf, rfl⟩ := resolveWrite_inv h
  have hc' : operandAddr m1 s.rb (s.raw 1) = some a := hc
  exact ⟨hr, by simp only [State.target, hc', if_pos hf]⟩

/-! The shapes where they complete. -/

/-- An ALU instruction whose operands exist and whose result fits. -/
theorem aluInstr_ok {op : AluOp} {m1 m2 m3 : Mode} {w r : Word} {t : Nat} (hr : s.rawsExist 3)
    (h1 : s.reachable m1 1) (h2 : s.reachable m2 2) (h3 : s.target m3 3 = some t)
    (ha : alu op (s.operand m1 1) (s.operand m2 2) = some r) :
    aluInstr op m1 m2 m3 w s =
      .ok () { s with mem := s.mem.write t r, memLen := max (s.lenReads 3 m1 m2) (t + 1), pc := s.pc + 4 } := by
  have ht := addressFault_natCast (target_some h3).2
  have hw := memWrite_ok (s := { s with memLen := s.lenReads 3 m1 m2 }) (v := r) ht
  simp only [Int.toNat_natCast, grow_eq, State.setCell] at hw
  simp only [aluInstr, operandsF3W_ok hr h1 h2 h3, bind_ok, aluStage_ok ha, hw]
  rfl

/-- An ALU instruction whose operands exist and whose result does not fit (41_arithmetic.md R111). -/
theorem aluInstr_overflow {op : AluOp} {m1 m2 m3 : Mode} {w : Word} {t : Nat} (hr : s.rawsExist 3)
    (h1 : s.reachable m1 1) (h2 : s.reachable m2 2) (h3 : s.target m3 3 = some t)
    (ha : alu op (s.operand m1 1) (s.operand m2 2) = none) :
    aluInstr op m1 m2 m3 w s = raise .overflowError w.toInt { s with memLen := s.lenReads 3 m1 m2 } := by
  simp only [aluInstr, operandsF3W_ok hr h1 h2 h3, bind_ok, aluStage_overflow ha, bind_raise]

/-- A jump that is not taken. -/
theorem jumpInstr_untaken {sense : Bool} {m1 m2 : Mode} (hr : s.rawsExist 2) (h1 : s.reachable m1 1)
    (h2 : s.reachable m2 2) (hc : truth (s.operand m1 1) ≠ sense) :
    jumpInstr sense m1 m2 s = .ok () { s with memLen := s.lenReads 2 m1 m2, pc := s.pc + 3 } := by
  simp only [jumpInstr, operandsF2R_ok hr h1 h2, bind_ok, if_neg hc]
  rfl

/-- A jump that is taken goes where `JumpTo` says. -/
theorem jumpInstr_taken {sense : Bool} {m1 m2 : Mode} (hr : s.rawsExist 2) (h1 : s.reachable m1 1)
    (h2 : s.reachable m2 2) (hc : truth (s.operand m1 1) = sense) :
    jumpInstr sense m1 m2 s = jumpTo (s.operand m2 2) { s with memLen := s.lenReads 2 m1 m2 } := by
  simp only [jumpInstr, operandsF2R_ok hr h1 h2, bind_ok, if_pos hc]

/-! Every way a shape can end: it only read and took one fault, or it completed. -/

/-- The stage only read and took one fault. -/
def Faults {α : Type} (s : State) (r : Res α) : Prop :=
  ∃ t f info, Grown s t ∧ StepFault s f info ∧ r = .raised (takeFault f info t)

/-- A stage that only reads answers a value or faults. -/
theorem Reads.cases {α : Type} {r : Res α} (h : Reads s r) : Faults s r ∨ ∃ a t, r = .ok a t ∧ Grown s t := by
  cases r with
  | ok a t => exact .inr ⟨a, t, rfl, h⟩
  | raised u =>
    obtain ⟨t, f, info, hg, hf, rfl⟩ := h
    exact .inl ⟨t, f, info, hg, hf, rfl⟩

theorem Faults.bind {α β : Type} {r : Res α} {k : α → State → Res β} (h : Faults s r) : Faults s (r.bind k) := by
  obtain ⟨t, f, info, hg, hf, rfl⟩ := h
  exact ⟨t, f, info, hg, hf, rfl⟩

/-- The length after the reads is within MEM_LIMIT, or memory did not grow. -/
theorem grown_lenReads {op : Mode} {m2 m3 : Mode} {w : Word} {o : Word × Word × Nat} {t : State}
    (h : operandsF3W op m2 m3 w s = .ok o t) : Grown s { s with memLen := s.lenReads 3 op m2 } := by
  obtain ⟨hr, h1, h2, h3⟩ := operandsF3W_inv h
  have := operandsF3W_reads op m2 m3 w s
  rw [operandsF3W_ok hr h1 h2 h3] at this
  exact this

/-- ALU instructions: a precise fault, or one cell written and pc advanced. -/
theorem aluInstr_cases (op : AluOp) (m1 m2 m3 : Mode) (w : Word) (s : State) :
    Faults s (aluInstr op m1 m2 m3 w s) ∨
    ∃ t r, s.rawsExist 3 ∧ s.reachable m1 1 ∧ s.reachable m2 2 ∧ s.target m3 3 = some t ∧
      alu op (s.operand m1 1) (s.operand m2 2) = some r ∧ Grown s { s with memLen := s.lenReads 3 m1 m2 } ∧
      aluInstr op m1 m2 m3 w s =
        .ok () { s with mem := s.mem.write t r, memLen := max (s.lenReads 3 m1 m2) (t + 1), pc := s.pc + 4 } := by
  rcases (operandsF3W_reads m1 m2 m3 w s).cases with hf | ⟨o, u, ho, -⟩
  · exact .inl hf.bind
  · obtain ⟨hr, h1, h2, h3⟩ := operandsF3W_inv ho
    have hg := grown_lenReads ho
    cases ha : alu op (s.operand m1 1) (s.operand m2 2) with
    | some r => exact .inr ⟨o.2.2, r, hr, h1, h2, h3, rfl, hg, aluInstr_ok hr h1 h2 h3 ha⟩
    | none =>
      exact .inl ⟨_, _, _, hg, stepFault_word w (by simp), aluInstr_overflow hr h1 h2 h3 ha⟩

/-- Jumps: a precise fault, or pc at the target or advanced. -/
theorem jumpInstr_cases (sense : Bool) (m1 m2 : Mode) (s : State) :
    Faults s (jumpInstr sense m1 m2 s) ∨
    ∃ pc, s.rawsExist 2 ∧ s.reachable m1 1 ∧ s.reachable m2 2 ∧
      ((truth (s.operand m1 1) ≠ sense ∧ pc = s.pc + 3) ∨
        (truth (s.operand m1 1) = sense ∧ 0 ≤ (s.operand m2 2).toInt ∧ pc = (s.operand m2 2).toInt.toNat)) ∧
      Grown s { s with memLen := s.lenReads 2 m1 m2 } ∧
      jumpInstr sense m1 m2 s = .ok () { s with memLen := s.lenReads 2 m1 m2, pc := pc } := by
  have hreads := operandsF2R_reads m1 m2 s
  rcases hreads.cases with hf | ⟨o, u, ho, -⟩
  · exact .inl hf.bind
  · obtain ⟨hr, h1, h2⟩ := operandsF2R_inv ho
    rw [operandsF2R_ok hr h1 h2] at hreads
    have hg : Grown s { s with memLen := s.lenReads 2 m1 m2 } := hreads
    by_cases hc : truth (s.operand m1 1) = sense
    · by_cases hn : (s.operand m2 2).toInt < 0
      · exact .inl ⟨_, _, _, hg, stepFault_word _ (by simp), (jumpInstr_taken hr h1 h2 hc).trans (jumpTo_negative hn)⟩
      · exact .inr ⟨_, hr, h1, h2, .inr ⟨hc, by omega, rfl⟩, hg,
          (jumpInstr_taken hr h1 h2 hc).trans (jumpTo_ok (by omega))⟩
    · exact .inr ⟨_, hr, h1, h2, .inl ⟨hc, rfl⟩, hg, jumpInstr_untaken hr h1 h2 hc⟩

/-- One read operand: a precise fault, or its value, memory grown. -/
theorem operandF1R_cases (m1 : Mode) (s : State) :
    Faults s (operandF1R m1 s) ∨
    (s.rawsExist 1 ∧ s.reachable m1 1 ∧ Grown s { s with memLen := s.lenF1R m1 } ∧
      operandF1R m1 s = .ok (s.operand m1 1) { s with memLen := s.lenF1R m1 }) := by
  have hreads := operandF1R_reads m1 s
  rcases hreads.cases with hf | ⟨o, u, ho, -⟩
  · exact .inl hf
  · obtain ⟨hr, h1⟩ := operandF1R_inv ho
    rw [operandF1R_ok hr h1] at hreads
    exact .inr ⟨hr, h1, hreads, operandF1R_ok hr h1⟩

/-- One write target: a precise fault, or its address, memory grown for the raw operand. -/
theorem operandF1W_cases (m1 : Mode) (w : Word) (s : State) :
    Faults s (operandF1W m1 w s) ∨
    ∃ t, s.rawsExist 1 ∧ s.target m1 1 = some t ∧ Grown s { s with memLen := s.lenRaws 1 } ∧
      operandF1W m1 w s = .ok t { s with memLen := s.lenRaws 1 } := by
  have hreads := operandF1W_reads m1 w s
  rcases hreads.cases with hf | ⟨o, u, ho, -⟩
  · exact .inl hf
  · obtain ⟨hr, h1⟩ := operandF1W_inv ho
    rw [operandF1W_ok hr h1] at hreads
    exact .inr ⟨o, hr, h1, hreads, operandF1W_ok hr h1⟩

end Sys2Proof.Machine
end

