-- ==== Sys2Proof/Laws/Step.lean ====
section
/-! SUPPORT. The two kinds of step, and the driver's turn by its command (40_execution_cycle.md R85, R90, R97). -/

namespace Sys2Proof.Machine

variable {s : State}

/-- What a step does with a fetched instruction or a fault of the fetch. -/
def afterFetch (r : Res Instr) : Host.Outcome State Fault Refusal :=
  match r with
  | .ok i t => exec i t
  | .raised t => .next t

/-- While a RESUME is served, a step fetches, decodes and runs. -/
theorem step_serving (h : s.resuming = true) (hr : s.state = .running) : step s = afterFetch (fetchDecode s) := by
  cases hf : fetchDecode s <;> simp only [step, afterFetch, h, hr, hf]

/-- Otherwise it is the driver's turn. -/
theorem step_driver (h : s.resuming = false ∨ s.state ≠ .running) : step s = .next (driverTurn s) := by
  unfold step
  split
  · next h1 h2 => simp [h1, h2] at h
  · rfl

theorem driverTurn_nil (h : s.driver = []) : driverTurn s = s := by simp [driverTurn, h]

theorem driverTurn_cons {c : Command} {rest : List Command} (h : s.driver = c :: rest) :
    driverTurn s = acceptCommand c { s with driver := rest } := by simp [driverTurn, h]

/-- Completing an INPUT whose target exists (R92). -/
theorem completeInput_ok {v : Word} (h : s.pendingTarget < s.params.memLimit) :
    completeInput v s = .ok ()
      { s with
        mem := s.mem.write s.pendingTarget v
        memLen := max s.memLen (s.pendingTarget + 1)
        pc := s.pc + 2
        state := .running } := by
  simp only [completeInput, memWrite_ok (addressFault_natCast h), bind_ok, Int.toNat_natCast, grow_eq]
  rfl

end Sys2Proof.Machine
end

