-- ==== Sys2Proof/Laws/Effects.lean ====
section
/-! SUPPORT. Everything an instruction can do, said once: it faults precisely, or completes with its own effect
(40_execution_cycle.md R87; 60_exceptions.md R181). Invariants and frames are derived from this. -/

namespace Sys2Proof.Machine

/-- The effect of an instruction of the ALU: one cell written, pc advanced. -/
def AluEffect (op : AluOp) (m1 m2 m3 : Mode) (s s' : State) : Prop :=
  ∃ t r, s.rawsExist 3 ∧ s.reachable m1 1 ∧ s.reachable m2 2 ∧ s.target m3 3 = some t ∧
    alu op (s.operand m1 1) (s.operand m2 2) = some r ∧ Grown s { s with memLen := s.lenReads 3 m1 m2 } ∧
    s' = { s with mem := s.mem.write t r, memLen := max (s.lenReads 3 m1 m2) (t + 1), pc := s.pc + 4 }

/-- The effect of a jump: pc advanced or at the target. -/
def JumpEffect (sense : Bool) (m1 m2 : Mode) (s s' : State) : Prop :=
  ∃ pc, s.rawsExist 2 ∧ s.reachable m1 1 ∧ s.reachable m2 2 ∧
    ((truth (s.operand m1 1) ≠ sense ∧ pc = s.pc + 3) ∨
      (truth (s.operand m1 1) = sense ∧ 0 ≤ (s.operand m2 2).toInt ∧ pc = (s.operand m2 2).toInt.toNat)) ∧
    Grown s { s with memLen := s.lenReads 2 m1 m2 } ∧
    s' = { s with memLen := s.lenReads 2 m1 m2, pc := pc }

/-- What each instruction does where it completes. -/
def Completed (i : Instr) (s s' : State) : Prop :=
  match i with
  | .add m1 m2 m3 _ => AluEffect .add m1 m2 m3 s s'
  | .multiply m1 m2 m3 _ => AluEffect .mul m1 m2 m3 s s'
  | .lessThan m1 m2 m3 _ => AluEffect .lt m1 m2 m3 s s'
  | .equals m1 m2 m3 _ => AluEffect .eq m1 m2 m3 s s'
  | .jumpIfTrue m1 m2 _ => JumpEffect true m1 m2 s s'
  | .jumpIfFalse m1 m2 _ => JumpEffect false m1 m2 s s'
  | .input m1 _ =>
    ∃ t, s.rawsExist 1 ∧ s.target m1 1 = some t ∧ Grown s { s with memLen := s.lenRaws 1 } ∧
      s' = suspendInput t { s with memLen := s.lenRaws 1 }
  | .output m1 _ =>
    s.rawsExist 1 ∧ s.reachable m1 1 ∧ Grown s { s with memLen := s.lenF1R m1 } ∧
      s' = ({ s with memLen := s.lenF1R m1, pc := s.pc + 2 } : State).emit (.output (s.operand m1 1))
  | .setRelativeBase m1 _ =>
    ∃ r, s.rawsExist 1 ∧ s.reachable m1 1 ∧ alu .add s.rb (s.operand m1 1) = some r ∧
      Grown s { s with memLen := s.lenF1R m1 } ∧
      s' = { s with memLen := s.lenF1R m1, rb := r, pc := s.pc + 2 }
  | .terminate _ => s' = s.halt.emit (.halted s.snapshot)

/-- The states a precise fault leaves (60_exceptions.md R181). -/
def FaultsTo (s s' : State) : Prop := ∃ t f info, Grown s t ∧ StepFault s f info ∧ s' = takeFault f info t

theorem Faults.outcome {α : Type} {s : State} {r : Res α} (h : Faults s r) :
    ∃ s', r.outcome = .next s' ∧ FaultsTo s s' := by
  obtain ⟨t, f, info, hg, hf, rfl⟩ := h
  exact ⟨_, rfl, t, f, info, hg, hf, rfl⟩

theorem aluInstr_effect (op : AluOp) (m1 m2 m3 : Mode) (w : Word) (s : State) :
    ∃ s', (aluInstr op m1 m2 m3 w s).outcome = .next s' ∧ (FaultsTo s s' ∨ AluEffect op m1 m2 m3 s s') := by
  rcases aluInstr_cases op m1 m2 m3 w s with h | ⟨t, r, hr, h1, h2, h3, ha, hg, he⟩
  · obtain ⟨s', h1, h2⟩ := h.outcome
    exact ⟨s', h1, .inl h2⟩
  · exact ⟨_, by rw [he, outcome_ok], .inr ⟨t, r, hr, h1, h2, h3, ha, hg, rfl⟩⟩

theorem jumpInstr_effect (sense : Bool) (m1 m2 : Mode) (s : State) :
    ∃ s', (jumpInstr sense m1 m2 s).outcome = .next s' ∧ (FaultsTo s s' ∨ JumpEffect sense m1 m2 s s') := by
  rcases jumpInstr_cases sense m1 m2 s with h | ⟨pc, hr, h1, h2, hpc, hg, he⟩
  · obtain ⟨s', h1, h2⟩ := h.outcome
    exact ⟨s', h1, .inl h2⟩
  · exact ⟨_, by rw [he, outcome_ok], .inr ⟨pc, hr, h1, h2, hpc, hg, rfl⟩⟩

/-- Every instruction has a next state, in which it faulted precisely or completed. -/
theorem exec_effect (i : Instr) (s : State) :
    ∃ s', exec i s = .next s' ∧ (FaultsTo s s' ∨ Completed i s s') := by
  cases i with
  | add m1 m2 m3 x => exact aluInstr_effect ..
  | multiply m1 m2 m3 x => exact aluInstr_effect ..
  | lessThan m1 m2 m3 x => exact aluInstr_effect ..
  | equals m1 m2 m3 x => exact aluInstr_effect ..
  | jumpIfTrue m1 m2 x => exact jumpInstr_effect ..
  | jumpIfFalse m1 m2 x => exact jumpInstr_effect ..
  | input m1 x =>
    rcases operandF1W_cases m1 (encode (.input m1 x)) s with h | ⟨t, hr, h1, hg, he⟩
    · obtain ⟨s', h1, h2⟩ := (h.bind (k := fun t s => .ok () (suspendInput t s))).outcome
      exact ⟨s', h1, .inl h2⟩
    · exact ⟨suspendInput t { s with memLen := s.lenRaws 1 }, by simp only [exec, execInput, he, bind_ok, outcome_ok],
        .inr ⟨t, hr, h1, hg, rfl⟩⟩
  | output m1 x =>
    rcases operandF1R_cases m1 s with h | ⟨hr, h1, hg, he⟩
    · obtain ⟨s', h1, h2⟩ := (h.bind (k := fun v s => .ok () ((s.advance 2).emit (.output v)))).outcome
      exact ⟨s', h1, .inl h2⟩
    · exact ⟨_, by simp only [exec, execOutput, he, bind_ok, outcome_ok]; rfl, .inr ⟨hr, h1, hg, rfl⟩⟩
  | setRelativeBase m1 x =>
    rcases operandF1R_cases m1 s with h | ⟨hr, h1, hg, he⟩
    · obtain ⟨s', h1, h2⟩ := (h.bind (k := fun d s =>
        (aluStage .add s.rb d (encode (.setRelativeBase m1 x)) s).bind fun r s =>
        .ok () ((s.setRb r).advance 2))).outcome
      exact ⟨s', h1, .inl h2⟩
    · cases ha : alu .add s.rb (s.operand m1 1) with
      | some r =>
        refine ⟨_, ?_, .inr ⟨r, hr, h1, ha, hg, rfl⟩⟩
        simp only [exec, execSetRelativeBase, he, bind_ok]
        rw [aluStage_ok (s := { s with memLen := s.lenF1R m1 }) ha]
        rfl
      | none =>
        refine ⟨_, ?_, .inl ⟨_, .overflowError, (encode (.setRelativeBase m1 x)).toInt, hg, stepFault_word _ (by simp), rfl⟩⟩
        simp only [exec, execSetRelativeBase, he, bind_ok]
        rw [aluStage_overflow (s := { s with memLen := s.lenF1R m1 }) ha]
        rfl
  | terminate x => exact ⟨_, rfl, .inr rfl⟩

/-- The fetch, if it answers an instruction, decoded the word at pc and grew memory to hold it. -/
theorem fetchDecode_cases (s : State) :
    Faults s (fetchDecode s) ∨
    ∃ i, decode s.params.strictModeDigits (s.cell s.pc) = .ok i ∧ s.pc < s.params.memLimit ∧
      fetchDecode s = .ok i (s.grow s.pc) := by
  by_cases h : s.pc < s.params.memLimit
  · rw [fetchDecode_ok h]
    cases hd : decode s.params.strictModeDigits (s.cell s.pc) with
    | ok i => exact .inr ⟨i, rfl, h, rfl⟩
    | error e =>
      exact .inl ⟨_, _, _, .grow h, stepFault_word _ (by cases e <;> simp [faultOfDecodeError]), rfl⟩
  · rw [fetchDecode, memRead_fault (addressFault_natCast_ge (by omega))]
    exact .inl ⟨_, _, _, .refl s, ⟨by simp, fun _ => by omega⟩, rfl⟩

theorem FaultsTo.weaken {s t s' : State} (h : Grown s t) (hf : FaultsTo t s') : FaultsTo s s' := by
  obtain ⟨u, f, info, hg, hs, rfl⟩ := hf
  exact ⟨u, f, info, h.trans hg, ⟨hs.1, by rw [← h.pc_eq]; exact hs.2⟩, rfl⟩

/-- A step while a RESUME is served: it faulted precisely, or the decoded instruction completed. -/
theorem step_effect {s : State} (h : s.resuming = true) (hr : s.state = .running) :
    ∃ s', step s = .next s' ∧
      (FaultsTo s s' ∨
        ∃ i, decode s.params.strictModeDigits (s.cell s.pc) = .ok i ∧ s.pc < s.params.memLimit ∧
          Completed i (s.grow s.pc) s') := by
  rw [step_serving h hr]
  rcases fetchDecode_cases s with ⟨t, f, info, hg, hf, he⟩ | ⟨i, hd, hp, he⟩
  · exact ⟨_, by rw [he]; rfl, .inl ⟨t, f, info, hg, hf, rfl⟩⟩
  · obtain ⟨s', h1, h2⟩ := exec_effect i (s.grow s.pc)
    refine ⟨s', by rw [he]; exact h1, ?_⟩
    rcases h2 with h2 | h2
    · exact .inl (h2.weaken (.grow hp))
    · exact .inr ⟨i, hd, hp, h2⟩

/-! The operands do not see memory grow. -/

@[simp] theorem raw_grow (s : State) (a k : Nat) : (s.grow a).raw k = s.raw k := by simp [State.raw]
@[simp] theorem operand_grow (s : State) (a : Nat) (m : Mode) (k : Nat) : (s.grow a).operand m k = s.operand m k := by
  simp [State.operand]
@[simp] theorem target_grow (s : State) (a : Nat) (m : Mode) (k : Nat) : (s.grow a).target m k = s.target m k := by
  simp [State.target]
@[simp] theorem reach_grow (s : State) (a : Nat) (m : Mode) (k : Nat) : (s.grow a).reach m k = s.reach m k := by
  simp [State.reach]

end Sys2Proof.Machine
end

