-- ==== Sys2Proof/Laws/Runs.lean ====
section
/-! SUPPORT. The end of a run by the response that is sent (46_terminate.md R161): READY begins a run, the first Halted or
Fault ends it, and no response but READY takes its results back. -/

namespace Sys2Proof.Machine

/-- The values of the Output responses among `rs`, in order. -/
def outputsOf (rs : List Response) : List Word :=
  rs.filterMap fun r => match r with | .output v => some v | _ => none

theorem sinceLoad_snoc (rs : List Response) (r : Response) :
    sinceLoad (rs ++ [r]) = if r = .ready then [] else sinceLoad rs ++ [r] := by
  simp [sinceLoad, List.foldl_append]

theorem resultOf_append_ended {rs : List Response} {x : RunResult} {outputs : List Word} (more : List Response)
    (h : resultOf outputs rs = some x) : resultOf outputs (rs ++ more) = some x := by
  induction rs generalizing outputs with
  | nil => simp [resultOf] at h
  | cons r rest ih => cases r <;> first | exact h | exact ih h

theorem resultOf_append_open {rs : List Response} {outputs : List Word} (more : List Response)
    (h : resultOf outputs rs = none) :
    resultOf outputs (rs ++ more) = resultOf (outputs ++ outputsOf rs) more := by
  induction rs generalizing outputs with
  | nil => simp [outputsOf]
  | cons r rest ih =>
    cases r with
    | halted p => simp [resultOf] at h
    | fault code pc info => simp [resultOf] at h
    | output v => simpa [outputsOf, resultOf] using ih h
    | ready => exact ih h
    | loadError e => exact ih h
    | needInput ctx => exact ih h

variable {s : State}

@[simp] theorem runResult_emit (r : Response) : (s.emit r).runResult = (s.respond r).runResult := rfl

@[simp] theorem runResult_ready : (s.respond .ready).runResult = none := by
  simp [State.runResult, State.respond, sinceLoad_snoc, resultOf]

/-- Once a run has ended its results stay, whatever is answered, until a LOAD is accepted. -/
theorem runResult_kept {r : Response} {x : RunResult} (h : s.runResult = some x) (hr : r ≠ .ready) :
    (s.respond r).runResult = some x := by
  simp only [State.runResult, State.respond, sinceLoad_snoc, if_neg hr]
  exact resultOf_append_ended [r] h

/-- The first Halted ends the run well, with the Outputs since its LOAD. -/
theorem runResult_halted {p : Snapshot} (h : s.runResult = none) :
    (s.respond (.halted p)).runResult = some (.well (outputsOf (sinceLoad s.responses)) p) := by
  simp [State.runResult, State.respond, sinceLoad_snoc, resultOf_append_open _ h, resultOf]

/-- The first Fault ends it badly. -/
theorem runResult_fault {code : FaultCode} {pc : Nat} {info : Int} (h : s.runResult = none) :
    (s.respond (.fault code pc info)).runResult =
      some (.badly (outputsOf (sinceLoad s.responses)) code pc info) := by
  simp [State.runResult, State.respond, sinceLoad_snoc, resultOf_append_open _ h, resultOf]

/-- A response that ends no run leaves an open run open. -/
theorem runResult_open {r : Response} (h : s.runResult = none) (h1 : ∀ p, r ≠ .halted p)
    (h2 : ∀ code pc info, r ≠ .fault code pc info) : (s.respond r).runResult = none := by
  by_cases hr : r = .ready
  · simp [hr]
  · simp only [State.runResult, State.respond, sinceLoad_snoc, if_neg hr]
    rw [resultOf_append_open _ h]
    cases r <;> simp_all [resultOf]

/-- A run ends one way. -/
theorem endedWell_not_endedBadly (h : s.EndedWell) : ¬ s.EndedBadly := by
  rintro ⟨_, _, _, _, h'⟩
  obtain ⟨_, _, h⟩ := h
  simp [h] at h'

end Sys2Proof.Machine
end

