-- ==== Sys2Proof/Tests/Slice0.lean ====
section
/-! SUPPORT. Checks of the model on fixed values. Expected results come from the spec: 95_test_vectors.md by the vector's
id, or the rule named. The witnesses at the end meet the hypotheses of the obligations, clause by clause. -/

namespace Sys2Proof.Tests

open Sys2Proof Sys2Proof.Machine

/-! Helpers: a core that serves a RESUME, a core with a smaller MEM_LIMIT, a driver's turn, one step. -/

/-- The core right after LOAD of these cells and the driver's RESUME. -/
def serving (cells : List Int) : State := { State.reset.loaded (cells.map Word.ofInt) with resuming := true }

/-- The same with MEM_LIMIT `limit`. -/
def limited (limit : Nat) (s : State) : State := { s with params := { s.params with memLimit := limit } }

/-- The same with STRICT_MODE_DIGITS. -/
def strictly (s : State) : State := { s with params := { s.params with strictModeDigits := true } }

/-- The same between calls, the driver about to send these commands. -/
def calling (commands : List Command) (s : State) : State := { s with resuming := false, driver := commands }

/-- The state after one step. -/
def after (s : State) : State :=
  match step s with
  | .next t => t
  | .fault _ => s
  | .refused _ => s

/-- An INPUT suspended with target 3 (vector I7). -/
def suspended : State := after (serving [3, 3, 99])

/-- A Halted core (vector M9). -/
def stopped : State := after (serving [99])

/-- A Faulted core (vector M8). -/
def broken : State := after (serving [])

/-! WellFormed refuses an ill-formed term at each of its checks (30_encoding.md R63, R66, R67, R72). -/

theorem test_immediate_target_refused :
    (Instr.add .position .position .immediate 0).wellFormed false = false ∧
    (Instr.multiply .position .position .immediate 0).wellFormed false = false ∧
    (Instr.input .immediate 0).wellFormed false = false ∧
    (Instr.lessThan .position .position .immediate 0).wellFormed false = false ∧
    (Instr.equals .position .position .immediate 0).wellFormed false = false := by decide

theorem test_excess_refused_when_strict :
    (Instr.terminate 1).wellFormed true = false ∧ (Instr.terminate 1).wellFormed false = true := by decide

theorem test_excess_beyond_int64_refused :
    (Instr.terminate 92233720368547758).wellFormed false = false ∧
    (Instr.output .position 9223372036854776).wellFormed false = false ∧
    (Instr.jumpIfTrue .position .position 922337203685478).wellFormed false = false ∧
    (Instr.add .position .position .position 92233720368548).wellFormed false = false := by decide

/-! Words written out from the tables of 30_encoding.md R60, R62, R64: one and more of each constructor. -/

theorem test_decode_add : decode false 21101 = .ok (.add .immediate .immediate .relative 0) := by decide
theorem test_decode_multiply : decode false 1002 = .ok (.multiply .position .immediate .position 0) := by decide
theorem test_decode_input : decode false 203 = .ok (.input .relative 0) := by decide
theorem test_decode_output : decode false 104 = .ok (.output .immediate 0) := by decide
theorem test_decode_jump_if_true : decode false 2105 = .ok (.jumpIfTrue .immediate .relative 0) := by decide
theorem test_decode_jump_if_false : decode false 1006 = .ok (.jumpIfFalse .position .immediate 0) := by decide
theorem test_decode_less_than : decode false 21207 = .ok (.lessThan .relative .immediate .relative 0) := by decide
theorem test_decode_equals : decode false 1008 = .ok (.equals .position .immediate .position 0) := by decide
theorem test_decode_set_relative_base : decode false 209 = .ok (.setRelativeBase .relative 0) := by decide
theorem test_decode_terminate : decode false 99 = .ok (.terminate 0) := by decide

/-- Excess digits: vectors E11, E13, E14. -/
theorem test_decode_excess :
    decode false 199 = .ok (.terminate 1) ∧ decode true 199 = .error .unknownMode ∧
    decode false 3004 = .ok (.output .position 3) ∧
    decode false 100001 = .ok (.add .position .position .position 1) := by decide

/-- Rejected words: vectors E1, E2, E4, E6, E7, E8, E9, E10. -/
theorem test_decode_errors :
    decode false 0 = .error .unknownOpcode ∧ decode false 98 = .error .unknownOpcode ∧
    decode false 100 = .error .unknownOpcode ∧ decode false (Word.ofInt (-99)) = .error .unknownOpcode ∧
    decode false 301 = .error .unknownMode ∧ decode false 30001 = .error .unknownMode ∧
    decode false 11101 = .error .invalidWriteMode ∧ decode false 103 = .error .invalidWriteMode := by decide

/-- The decoder's ports for the word of vector S6 (30_encoding.md R70). -/
theorem test_decoder_ports : decoderPorts false 1002 = .ok ⟨2, 3, 4, 0, 1, 0, 3⟩ ∧ decoderPorts false 103 = .error 3 := by
  decide

theorem test_encode : encode (.lessThan .relative .immediate .relative 0) = 21207 ∧ encode (.terminate 1) = 199 := by decide

/-! One step of each instruction. -/

/-- Vector S1's first step: 30 + 40 into cell 3. -/
theorem test_add : (after (serving [1, 9, 10, 3, 2, 3, 11, 0, 99, 30, 40, 50])).cell 3 = 70 ∧
    (after (serving [1, 9, 10, 3, 2, 3, 11, 0, 99, 30, 40, 50])).pc = 4 := by decide

/-- Vector A2: the largest value and 1. -/
theorem test_add_overflow :
    (after (serving [1101, 9223372036854775807, 1, 7, 4, 7, 99, 0])).responses = [.fault .overflowError 0 1101] ∧
    (after (serving [1101, 9223372036854775807, 1, 7, 4, 7, 99, 0])).cell 7 = 0 := by decide

/-- Vector A6: −2^32 · 2^31 = −2^63 fits. -/
theorem test_multiply_smallest :
    ((after (serving [1102, -4294967296, 2147483648, 7, 4, 7, 99, 0])).cell 7).toInt = -9223372036854775808 := by decide

/-- Vector A5: 2^32 · 2^31 does not. -/
theorem test_multiply_overflow :
    (after (serving [1102, 4294967296, 2147483648, 7, 4, 7, 99, 0])).responses = [.fault .overflowError 0 1102] := by decide

/-- Vector C3: the comparison is signed. -/
theorem test_less_than :
    (after (serving [1107, -9223372036854775808, 9223372036854775807, 7, 4, 7, 99, 0])).cell 7 = 1 := by decide

/-- Vector C9: operands are read before the result is written over the instruction's own word. -/
theorem test_less_than_in_place : (after (serving [7, 0, 0, 0, 99])).mem = [(4, 99)] := by decide

/-- Vectors C10 and C6. -/
theorem test_equals : (after (serving [8, 0, 0, 0, 99])).cell 0 = 1 ∧
    (after (serving [1108, -9223372036854775808, 9223372036854775807, 7, 4, 7, 99, 5])).cell 7 = 0 := by decide

/-- Vector I7: the suspended INPUT has not grown memory to its target. -/
theorem test_input_suspends : suspended.responses = [.needInput 0] ∧ suspended.state = .awaitingInput ∧
    suspended.pc = 0 ∧ suspended.memLen = 3 ∧ suspended.pendingTarget = 3 := by decide

/-- Vector P1: the value completes it, at a new cell. -/
theorem test_input_completes : (after (calling [.resumeWith 7] suspended)).snapshot.toList = [3, 3, 99, 7] ∧
    (after (calling [.resumeWith 7] suspended)).pc = 2 := by decide

/-- Vectors O2 and M1: a read beyond `mem_len` grows memory. -/
theorem test_output : (after (serving [4, 0, 99])).responses = [.output 4] ∧
    (after (serving [4, 5, 99])).responses = [.output 0] ∧ (after (serving [4, 5, 99])).memLen = 6 := by decide

/-- Vectors J1 and J3. -/
theorem test_jump_if_true : (after (serving [1105, 1, 4, 99, 104, 7, 99])).pc = 4 ∧
    (after (serving [1105, 0, 4, 99, 104, 7, 99])).pc = 3 := by decide

/-- Vectors J5 and J6: a negative target faults only where the jump is taken. -/
theorem test_jump_negative : (after (serving [1105, 1, -1])).responses = [.fault .addressError 0 (-1)] ∧
    (after (serving [1105, 0, -1, 99])).pc = 3 := by decide

/-- Vectors J4 and J2. -/
theorem test_jump_if_false : (after (serving [1106, 0, 4, 99, 104, 7, 99])).pc = 4 ∧
    (after (serving [1106, 1, 4, 99, 104, 7, 99])).pc = 3 := by decide

/-- Vectors B6 and B1. -/
theorem test_set_relative_base : (after (serving [209, 1, 99])).rb = 1 ∧
    (after (serving [109, 19, 204, -15, 99])).rb = 19 := by decide

/-- Vector B2's second step. -/
theorem test_relative_base_overflow :
    (after { serving [109, 9223372036854775807, 109, 1, 99] with pc := 2, rb := 9223372036854775807 }).responses =
      [.fault .overflowError 2 109] := by decide

/-- Vector M9. -/
theorem test_terminate : stopped.responses = [.halted ⟨1, [(0, 99)]⟩] ∧ stopped.pc = 0 ∧ stopped.halted = true ∧
    stopped.state = .halted := by decide

/-- Relative addresses are exact: vectors M13 and M14, the ends of the range of `fault_info`. -/
theorem test_relative_address_exact :
    (after { serving [204, -9223372036854775808] with rb := Word.ofInt (-9223372036854775808) }).faultInfo =
      -18446744073709551616 ∧
    (after { serving [204, 9223372036854775807] with rb := 9223372036854775807 }).faultInfo = 18446744073709551614 := by
  decide

/-- Vectors E17 and E20. -/
theorem test_fault_priority :
    (after (serving [11101, -1, -2, -3, 99])).responses = [.fault .invalidWriteModeError 0 11101] ∧
    (after (limited 2 (serving [1105, -1]))).responses = [.fault .capacityError 0 2] := by decide

/-! The protocol, LOAD and the assembler. -/

/-- Vectors P2, P3 and P4. -/
theorem test_resume_misuse : (after (calling [.resume] stopped)).faultCode = .alreadyHaltedError ∧
    (after (calling [.resume] stopped)).halted = true ∧
    (after (calling [.resumeWith 5] { serving [104, 1, 99] with pc := 2 })).responses = [.fault .inputProtocolError 2 5] ∧
    (after (calling [.resume] broken)).responses =
      [.fault .unknownOpcodeError 0 0, .fault .unknownOpcodeError 0 0] := by decide

/-- Vector P6, and the grammar of 70_reset_and_hazards.md R201. -/
theorem test_load_text : parseProgram "1,x".toList = .error .malformed ∧
    parseProgram "9223372036854775808".toList = .error .range ∧ parseProgram [] = .ok [] ∧
    parseProgram "-9223372036854775808,007".toList = .ok [Word.ofInt (-9223372036854775808), 7] ∧
    parseProgram "1,,2".toList = .error .malformed ∧ parseProgram "+1".toList = .error .malformed := by decide

/-- Vector P7: LOAD leaves Faulted. -/
theorem test_load_resets : (after (calling [.load [99]] broken)).state = .running ∧
    (after (calling [.load [99]] broken)).faultCode = .noFault ∧
    (after (calling [.load [99]] broken)).snapshot.toList = [99] := by decide

/-- State.reset is what LOAD of no cells leaves of the core (log 11). -/
theorem test_reset_is_empty_load : State.reset.loaded [] = State.reset := by decide

/-- Program L1 of 95_test_vectors.md 3.1, from its source text. -/
theorem test_assemble : assembleText
    "OUTPUT [10]\nloop: ADD [n], #-1, [n] ; less one\nJUMP_IF_TRUE [10], #0\nHALT\nn: DATA 3".toList =
    some ([4, 10, 1001, 10, -1, 10, 1005, 10, 0, 99, 3].map Word.ofInt) := by decide

theorem test_render : renderProgram [104, Word.ofInt (-5), 99] = "104,-5,99".toList := by decide

/-- The words the host asks about are placed where the step fetches them. -/
theorem test_fetch_word : decodeTableWord 64 1105 = some (.jumpIfTrue .immediate .immediate 0) ∧
    (after (State.reset.withFetchWord 64 104)).responses = [.output 0] := by decide

/-- Vector I2's neighbour O1 as one driver call, and the driver of 70_reset_and_hazards.md R203. -/
theorem test_call : ((call 2 .resume (calling [] (serving [104, -5, 99]))).map (·.1)) = some (.output (Word.ofInt (-5))) ∧
    driverAnswer [42] (.needInput 0) = some (.resumeWith 42, []) ∧ driverAnswer [] (.needInput 0) = none ∧
    driverAnswer [] (.output 7) = some (.resume, []) := by decide

/-- The end of a run (46_terminate.md R161): a LOAD begins one, a refused LOAD ends none, Halted ends it well with the Outputs
before it, and a misused resume after it does not change that (log 24). -/
theorem test_run_result :
    ({ stopped with responses := [.output 9, .ready, .needInput 0, .output 7, .halted ⟨1, [(0, 99)]⟩, .loadError .malformed,
      .fault .alreadyHaltedError 0 0] } : State).runResult = some (.well [7] ⟨1, [(0, 99)]⟩) ∧
    (after (calling [.loadText ['x']] broken)).runResult = some (.badly [] .unknownOpcodeError 0 0) ∧
    suspended.runResult = none ∧ (after (calling [.load [99]] stopped)).runResult = none := by decide

/-- After LOAD_ERROR the driver stops, and MOV to an Immediate destination gives a refused word (log 25, log 19). -/
theorem test_model_choices : driverAnswer [1] (.loadError .malformed) = none ∧
    (assembleText "MOV [1], #2".toList).map (·.head?.map (decode true)) = some (some (.error .invalidWriteMode)) ∧
    assembleText "DATA".toList = some [] := by decide

/-! Witnesses: states and operands that meet the hypotheses of the obligations. -/

/-- The suspended core meets the invariant. -/
theorem witness_inv_suspended : suspended.Inv :=
  ⟨by decide, by decide, by decide, by decide, by decide, by decide, by decide, by decide, by decide, by decide, by decide,
    by decide, by decide, by decide⟩

theorem witness_inv_stopped : stopped.Inv :=
  ⟨by decide, by decide, by decide, by decide, by decide, by decide, by decide, by decide, by decide, by decide, by decide,
    by decide, by decide, by decide⟩

theorem witness_inv_serving : (serving [1, 9, 10, 3]).Inv :=
  ⟨by decide, by decide, by decide, by decide, by decide, by decide, by decide, by decide, by decide, by decide, by decide,
    by decide, by decide, by decide⟩

theorem witness_inv_calling : (calling [.resumeWith 5] (serving [104, 1, 99])).Inv :=
  ⟨by decide, by decide, by decide, by decide, by decide, by decide, by decide, by decide, by decide, by decide, by decide,
    by decide, by decide, by decide⟩

theorem witness_DecodeEncodeRoundTrip :
    (Instr.add .relative .immediate .position 92233720368547).wellFormed false = true ∧
    (Instr.terminate 92233720368547757).wellFormed false = true ∧
    (Instr.input .relative 0).wellFormed true = true := by decide

theorem witness_EncodeDecodeRoundTrip :
    decode true 21207 = .ok (.lessThan .relative .immediate .relative 0) ∧
    decode false 9223372036854775799 = .ok (.terminate 92233720368547757) := by decide

theorem witness_NegativeWordFaults : (serving [-1]).Fetching ∧ (serving [-1]).word.toInt < 0 := by decide

theorem witness_UnlistedOpcodeFaults : (serving [98]).Fetching ∧ 0 ≤ (serving [98]).word.toInt ∧
    opcodeTable ((serving [98]).word.toNat % 100) = none ∧ (serving []).Fetching ∧
    opcodeTable ((serving []).word.toNat % 100) = none := by decide

theorem witness_BadModeDigitFaults : (serving [30001]).Fetching ∧ 0 ≤ (serving [30001]).word.toInt ∧
    opcodeTable ((serving [30001]).word.toNat % 100) = some ⟨3, some 3⟩ ∧ 1 ≤ 3 ∧ 3 ≤ 3 ∧
    3 ≤ digit (3 + 1) (serving [30001]).word.toNat ∧ 3 ≤ digit (1 + 1) (serving [901]).word.toNat := by decide

theorem witness_UnusedDigitsIgnoredOrRefused : 0 ≤ (199 : Word).toInt ∧ opcodeTable ((199 : Word).toNat % 100) = some ⟨0, none⟩ ∧
    decode false (BitVec.ofNat 64 ((199 : Word).toNat % 10 ^ (0 + 2))) = .ok (.terminate 0) ∧
    decode false (BitVec.ofNat 64 ((100301 : Word).toNat % 10 ^ (3 + 2))) = .error .unknownMode ∧
    (strictly (serving [199])).Fetching ∧ (strictly (serving [199])).params.strictModeDigits = true ∧
    opcodeTable ((strictly (serving [199])).word.toNat % 100) = some ⟨0, none⟩ ∧
    (strictly (serving [199])).word.toNat / 10 ^ (0 + 2) ≠ 0 := by decide

theorem witness_ImmediateTargetFaults : (strictly (serving [11101])).Fetching ∧
    opcodeTable ((strictly (serving [11101])).word.toNat % 100) = some ⟨3, some 3⟩ ∧
    digit (3 + 1) (strictly (serving [11101])).word.toNat = 1 ∧
    (∀ j ∈ [1, 2, 3], digit (j + 1) (strictly (serving [11101])).word.toNat ≤ 2) ∧
    (strictly (serving [11101])).word.toNat / 10 ^ (3 + 2) = 0 ∧
    opcodeTable ((serving [103]).word.toNat % 100) = some ⟨1, some 1⟩ ∧ digit (1 + 1) (serving [103]).word.toNat = 1 := by
  decide

theorem witness_StrictLegalWordsAre99 : decode true 99 = .ok (.terminate 0) ∧
    in64 ((99 : Word).toInt + (1 : Nat) * 10 ^ ((Instr.terminate 0).operandCount + 2)) := by decide

theorem witness_DecoderPortsReadTheWord : decoderPorts false 21207 = .ok ⟨7, 3, 4, 2, 1, 2, 3⟩ ∧
    decoderPorts true 99 = .ok ⟨99, 0, 1, 0, 0, 0, 0⟩ ∧ decode false 98 = .error .unknownOpcode ∧
    decode false 103 = .error .invalidWriteMode ∧ decode true 199 = .error .unknownMode := by decide

/-- Both address faults and both ends of the legal range. -/
theorem witness_AddrCheckOutcomes : (-1 : Int) < 0 ∧ ((limited 3 (serving [99])).params.memLimit : Int) ≤ 3 ∧
    (2 : Int) < (limited 3 (serving [99])).params.memLimit ∧ (serving [99]).params = Params.default := by decide

theorem witness_ReadReturnsCellAndGrows :
    addressFault (limited 3 (serving [99])).params.memLimit (-1) = some .addressError ∧
    addressFault (limited 3 (serving [99])).params.memLimit 3 = some .capacityError ∧
    addressFault (limited 3 (serving [99])).params.memLimit 2 = none ∧
    (∀ c ∈ (limited 3 (serving [99])).mem, c.1 < (limited 3 (serving [99])).memLen) ∧
    (limited 3 (serving [99])).memLen ≤ (2 : Int).toNat ∧
    memRead 2 (limited 3 (serving [99])) = .ok 0 { limited 3 (serving [99]) with memLen := 3 } := by decide

theorem witness_WriteStoresOneCell :
    addressFault (limited 3 (serving [99])).params.memLimit 3 = some .capacityError ∧
    addressFault (limited 3 (serving [99])).params.memLimit 2 = none ∧
    (∀ c ∈ (limited 3 (serving [99])).mem, c.1 < (limited 3 (serving [99])).memLen) ∧
    (limited 3 (serving [99])).memLen ≤ 1 ∧ 1 ≠ (2 : Int).toNat := by decide

theorem witness_CanonicalMemoryIsUnique : Memory.wf [(0, 3), (4, 99)] ∧
    ∀ a, Memory.read [(0, 3), (4, 99)] a = Memory.read ([(0, 3)] ++ [(4, 99)]) a := ⟨by decide, fun _ => rfl⟩

theorem witness_SnapshotListsEveryCell : 2 < (serving [3, 3, 99]).memLen := by decide

theorem witness_StepRunsDecodedInstruction : (serving [199]).Fetching ∧
    decode (serving [199]).params.strictModeDigits (serving [199]).word = .ok (.terminate 1) := by decide

theorem witness_FetchBeyondLimitFaults : ({ limited 3 (serving [99]) with pc := 3 } : State).resuming = true ∧
    ({ limited 3 (serving [99]) with pc := 3 } : State).state = .running ∧
    ({ limited 3 (serving [99]) with pc := 3 } : State).params.memLimit ≤ 3 := by decide

/-- A core whose third operand is the last cell there is; its sum and product fit. -/
def full : State := { limited 5 (serving [22201, 2, 0, 2]) with rb := 2 }

theorem witness_AddStoresSum : full.rawsExist 3 ∧ full.reachable .relative 1 ∧ full.reachable .relative 2 ∧
    full.reachable .position 1 ∧ full.target .relative 3 = some 4 ∧
    in64 ((full.operand .relative 1).toInt + (full.operand .relative 2).toInt) := by decide

theorem witness_MultiplyStoresProduct : full.rawsExist 3 ∧ full.reachable .position 1 ∧ full.reachable .immediate 2 ∧
    full.target .position 3 = some 2 ∧
    in64 ((full.operand .position 1).toInt * (full.operand .immediate 2).toInt) := by decide

theorem witness_LessThanStoresComparison : full.rawsExist 3 ∧ full.reachable .position 1 ∧ full.reachable .immediate 2 ∧
    full.target .relative 3 = some 4 := by decide

theorem witness_EqualsStoresComparison : full.rawsExist 3 ∧ full.reachable .immediate 1 ∧ full.reachable .relative 2 ∧
    full.target .position 3 = some 2 := by decide

theorem witness_InputSuspends : (limited 4 (serving [3, 3, 99])).rawsExist 1 ∧
    (limited 4 (serving [3, 3, 99])).target .position 1 = some 3 := by decide

theorem witness_OutputEmitsOperand : (limited 2 (serving [4, 1])).rawsExist 1 ∧
    (limited 2 (serving [4, 1])).reachable .position 1 := by decide

/-- Each jump taken, to the target 0, and not taken. -/
theorem witness_JumpIfTrueSetsPc : (limited 3 (serving [1105, 1, 0])).rawsExist 2 ∧
    (limited 3 (serving [1105, 1, 0])).reachable .immediate 1 ∧ (limited 3 (serving [1105, 1, 0])).reachable .immediate 2 ∧
    (limited 3 (serving [1105, 1, 0])).operand .immediate 1 ≠ 0 ∧
    0 ≤ ((limited 3 (serving [1105, 1, 0])).operand .immediate 2).toInt ∧
    (serving [1105, 0, 0]).operand .immediate 1 = 0 := by decide

theorem witness_JumpIfFalseSetsPc : (limited 3 (serving [1106, 0, 0])).rawsExist 2 ∧
    (limited 3 (serving [1106, 0, 0])).reachable .immediate 1 ∧ (limited 3 (serving [1106, 0, 0])).reachable .immediate 2 ∧
    (limited 3 (serving [1106, 0, 0])).operand .immediate 1 = 0 ∧
    0 ≤ ((limited 3 (serving [1106, 0, 0])).operand .immediate 2).toInt ∧
    (serving [1106, 1, 0]).operand .immediate 1 ≠ 0 := by decide

theorem witness_SetRelativeBaseAdds : (limited 2 (serving [9, 1])).rawsExist 1 ∧
    (limited 2 (serving [9, 1])).reachable .position 1 ∧
    in64 ((limited 2 (serving [9, 1])).rb.toInt + ((limited 2 (serving [9, 1])).operand .position 1).toInt) := by decide

theorem witness_ArithmeticOverflowFaults : (serving [1101, 9223372036854775807, 1, 7]).Fetching ∧
    (serving [1101, 9223372036854775807, 1, 7]).rawsExist 3 ∧
    (serving [1101, 9223372036854775807, 1, 7]).reachable .immediate 1 ∧
    (serving [1101, 9223372036854775807, 1, 7]).reachable .immediate 2 ∧
    (serving [1101, 9223372036854775807, 1, 7]).target .position 3 = some 7 ∧
    decode false (serving [1101, 9223372036854775807, 1, 7]).word = .ok (.add .immediate .immediate .position 0) ∧
    ¬ in64 (((serving [1101, 9223372036854775807, 1, 7]).operand .immediate 1).toInt +
      ((serving [1101, 9223372036854775807, 1, 7]).operand .immediate 2).toInt) ∧
    decode false (serving [1102, 4294967296, 2147483648, 7]).word = .ok (.multiply .immediate .immediate .position 0) ∧
    ¬ in64 (((serving [1102, 4294967296, 2147483648, 7]).operand .immediate 1).toInt *
      ((serving [1102, 4294967296, 2147483648, 7]).operand .immediate 2).toInt) := by decide

theorem witness_RelativeBaseOverflowFaults :
    ({ serving [109, 1] with rb := 9223372036854775807 } : State).Fetching ∧
    ({ serving [109, 1] with rb := 9223372036854775807 } : State).rawsExist 1 ∧
    ({ serving [109, 1] with rb := 9223372036854775807 } : State).reachable .immediate 1 ∧
    decode false ({ serving [109, 1] with rb := 9223372036854775807 } : State).word = .ok (.setRelativeBase .immediate 0) ∧
    ¬ in64 (({ serving [109, 1] with rb := 9223372036854775807 } : State).rb.toInt +
      (({ serving [109, 1] with rb := 9223372036854775807 } : State).operand .immediate 1).toInt) := by decide

theorem witness_JumpTargetChecks : (serving [1105, 1, -1]).rawsExist 2 ∧ (serving [1105, 1, -1]).reachable .immediate 1 ∧
    (serving [1105, 1, -1]).reachable .immediate 2 ∧ ((serving [1105, 1, -1]).operand .immediate 2).toInt < 0 ∧
    (serving [1105, 1, -1]).operand .immediate 1 ≠ 0 ∧ (serving [1106, 0, -1]).operand .immediate 1 = 0 ∧
    0 ≤ (0 : Word).toInt ∧ (limited 3 (serving [1105, 1, 3])).resuming = true ∧
    ((limited 3 (serving [1105, 1, 3])).params.memLimit : Int) ≤ (3 : Word).toInt := by decide

theorem witness_RawOperandFetchFaultsFirst : 3 ≤ (Instr.add .position .position .position 0).operandCount ∧
    (limited 3 (serving [1, 0, 0])).pc + 3 = (limited 3 (serving [1, 0, 0])).params.memLimit ∧
    1 ≤ (Instr.output .position 0).operandCount ∧
    (limited 1 (serving [4])).pc + 1 = (limited 1 (serving [4])).params.memLimit := by decide

/-- One witness for each clause: operand 1, operand 2, the target of F3W, the target of INPUT. -/
theorem witness_OperandFaultsInOrder : (serving [1, -1, -2, -3]).rawsExist 3 ∧
    operandAddr .position (serving [1, -1, -2, -3]).rb ((serving [1, -1, -2, -3]).raw 1) = some (-1) ∧
    addressFault (serving [1, -1, -2, -3]).params.memLimit (-1) = some .addressError ∧
    (serving [1, 0, -2, -3]).reachable .position 1 ∧
    operandAddr .position (serving [1, 0, -2, -3]).rb ((serving [1, 0, -2, -3]).raw 2) = some (-2) ∧
    (limited 4 (serving [1, 0, 0, 4])).reachable .position 2 ∧
    operandAddr .position (limited 4 (serving [1, 0, 0, 4])).rb ((limited 4 (serving [1, 0, 0, 4])).raw 3) = some 4 ∧
    addressFault (limited 4 (serving [1, 0, 0, 4])).params.memLimit 4 = some .capacityError ∧
    (serving [3, -1]).rawsExist 1 ∧ (Instr.input .position 0).writeOperand = some 1 ∧
    operandAddr .position (serving [3, -1]).rb ((serving [3, -1]).raw 1) = some (-1) := by decide

theorem witness_FaultsArePrecise : (serving []).resuming = true ∧ (serving []).state = .running ∧ broken.state = .faulted ∧
    (calling [.resumeWith 5] (serving [104, 1, 99])).Inv ∧
    (after (calling [.resumeWith 5] (serving [104, 1, 99]))).state = .faulted :=
  ⟨by decide, by decide, by decide, witness_inv_calling, by decide⟩

theorem witness_StoringInstructionsFrame : ∃ s', exec (.add .position .position .position 0) (serving [1, 0, 0, 0, 99]) = .next s' ∧
    operandAddr .position (serving [1, 0, 0, 0, 99]).rb ((serving [1, 0, 0, 0, 99]).raw 3) = some 0 := ⟨_, rfl, by decide⟩

theorem witness_JumpsFrame : ∃ s', exec (.jumpIfTrue .immediate .immediate 0) (serving [1105, 1, 0]) = .next s' := ⟨_, rfl⟩
theorem witness_InputFrame : ∃ s', exec (.input .position 0) (serving [3, 3, 99]) = .next s' := ⟨_, rfl⟩
theorem witness_OutputFrame : ∃ s', exec (.output .position 0) (serving [4, 5, 99]) = .next s' := ⟨_, rfl⟩
theorem witness_SetRelativeBaseFrame : ∃ s', exec (.setRelativeBase .immediate 0) (serving [109, 1]) = .next s' := ⟨_, rfl⟩
theorem witness_TerminateFrame : ∃ s', exec (.terminate 0) (serving [99]) = .next s' := ⟨_, rfl⟩

theorem witness_OnlyStoringInstructionsChangeCells : (serving [1, 0, 0, 0, 99]).resuming = true ∧
    (serving [1, 0, 0, 0, 99]).state = .running ∧
    (after (serving [1, 0, 0, 0, 99])).cell 0 ≠ (serving [1, 0, 0, 0, 99]).cell 0 := by decide

theorem witness_RegistersHaveOneWriter : (after (serving [109, 1])).rb ≠ (serving [109, 1]).rb ∧
    stopped.halted ≠ (serving [99]).halted ∧ suspended.pendingTarget ≠ (serving [3, 3, 99]).pendingTarget ∧
    broken.faultCode ≠ (serving []).faultCode := by decide

theorem witness_MemoryNeverShrinks : ∃ s', step (calling [.load []] stopped) = .next s' ∧
    s'.memLen < (calling [.load []] stopped).memLen := ⟨_, rfl, by decide⟩

theorem witness_OneResponsePerStep : (after (serving [104, 1, 99])).resuming = false ∧
    (after (serving [1105, 1, 0])).resuming = true := by decide

theorem witness_DriverCannotInfluenceService : (serving [104, 1]).resuming = true ∧ (serving [104, 1]).state = .running := by
  decide

theorem witness_ResumeOfHaltedFaults : (calling [.resume] stopped).resuming = false ∧
    (calling [.resume] stopped).state = .halted ∧ stopped.Inv := ⟨by decide, by decide, witness_inv_stopped⟩

theorem witness_FaultedIsSticky : (calling [.resume] broken).resuming = false ∧ (calling [.resume] broken).state = .faulted ∧
    (after (calling [.load []] broken)).state ≠ .faulted := by decide

theorem witness_MisusedResumes : (calling [.resume] suspended).resuming = false ∧
    (calling [.resume] suspended).state = .awaitingInput ∧
    (calling [.resumeWith 5] (serving [104, 1, 99])).resuming = false ∧
    (calling [.resumeWith 5] (serving [104, 1, 99])).state = .running := by decide

theorem witness_SuppliedValueCompletesInput : (calling [.resumeWith 7] (limited 4 suspended)).resuming = false ∧
    (calling [.resumeWith 7] (limited 4 suspended)).state = .awaitingInput ∧
    (calling [.resumeWith 7] (limited 4 suspended)).pendingTarget <
      (calling [.resumeWith 7] (limited 4 suspended)).params.memLimit := by decide

theorem witness_ResumeOfRunningStarts : (calling [.resume] (serving [99])).resuming = false ∧
    (calling [.resume] (serving [99])).state = .running ∧ (calling [] (serving [99])).driver = [] := by decide

theorem witness_BusyChannelRefuses : (serving [99]).resuming = true ∧ (calling [] (serving [99])).resuming = false ∧
    (calling [] (serving [99])).driver = [] := by decide

/-- An image that fills memory, and the empty one. -/
theorem witness_LoadResets : (calling [.load [104, 7, 99]] (limited 3 broken)).resuming = false ∧
    [104, 7, 99].length ≤ (calling [.load [104, 7, 99]] (limited 3 broken)).params.memLimit ∧
    ([] : List Word).length ≤ broken.params.memLimit := by decide

theorem witness_LoadTextLoadsOrRefuses : (calling [.loadText ['9', '9']] broken).resuming = false ∧
    parseProgram ['9', '9'] = .ok [99] ∧ (limited 1 broken).params.memLimit < [104, 7].length ∧
    parseProgram ['x'] = .error .malformed ∧ ['x'] ≠ [] ∧ parseCell ['x'] = none := by decide

/-- The range clause at its boundary, and the grammar's. -/
theorem witness_LoadTextLoadsOrRefuses_range : parseProgram "9223372036854775808".toList = .error .range ∧
    parseProgram "-9223372036854775808".toList = .ok [Word.ofInt (-9223372036854775808)] := by decide

theorem witness_LoadTextLoadsOrRefuses_cell : (∀ c ∈ ['0', '9'], 48 ≤ c.toNat ∧ c.toNat ≤ 57) ∧
    parseCell ['-', '0', '9'] = some (-9) := ⟨by simp, by decide⟩

/-- ADD with a label, and TERMINATE with no operand. -/
theorem witness_AssembledWordDecodes : opcodeTable 1 = some ⟨3, some 3⟩ ∧
    allSome ([AsmOperand.position (.label ['n']), .immediate (.number 1), .rbMinus (.number 2)].map
      (·.resolve [(['n'], 7)])) = some [7, 1, -2] ∧
    (∀ o ∈ [AsmOperand.position (.label ['n']), .immediate (.number 1), .rbMinus (.number 2)][3 - 1]?, o.mode ≠ .immediate) ∧
    opcodeTable 99 = some ⟨0, none⟩ := by decide

theorem witness_ResetMeetsInvariant : Params.default.wf ∧ Params.wf ⟨1, true⟩ := by decide

theorem witness_StepKeepsInvariant : (serving [1, 9, 10, 3]).Inv ∧ ∃ s', step (serving [1, 9, 10, 3]) = .next s' :=
  ⟨witness_inv_serving, _, rfl⟩

/-- A reachable core that awaits input: three steps from reset, by LOAD and RESUME. -/
theorem witness_ReachableStatesKeepSpecInvariants : ∃ s, Reaches { State.reset with driver := [.load [3, 3, 99], .resume] } s ∧
    s.state = .awaitingInput :=
  ⟨_, Reaches.tail _ _ _ (Reaches.tail _ _ _ (Reaches.tail _ _ _ (Reaches.refl _) rfl) rfl) rfl, rfl⟩

theorem witness_RegisterBitsLoseNothing : suspended.Inv ∧ suspended.registerBits.state = 1 :=
  ⟨witness_inv_suspended, by decide⟩

/-- Both ends of the Relative sum, a sum at MEM_LIMIT, a target at the last cell, and decoded words with each target. -/
theorem witness_ModesResolveOperands : (Word.ofInt (-1)).toInt < 0 ∧
    ({ serving [99] with rb := Word.ofInt (-9223372036854775808) } : State).rb.toInt +
      (Word.ofInt (-9223372036854775808)).toInt < 0 ∧
    ((limited 5 { serving [99] with rb := 2 }).params.memLimit : Int) ≤
      (limited 5 { serving [99] with rb := 2 }).rb.toInt + (3 : Word).toInt ∧
    resolveWrite .relative 2 99 (limited 5 { serving [99] with rb := 2 }) = .ok 4 (limited 5 { serving [99] with rb := 2 }) ∧
    decode false 21107 = .ok (.lessThan .immediate .immediate .relative 0) ∧ decode false 3 = .ok (.input .position 0) ∧
    decode false 99 = .ok (.terminate 0) ∧ full.target .relative 3 = some 4 := by decide

end Sys2Proof.Tests
end

section
/-! PROOF. The LOAD command between calls, and LOAD of an image that fits as the reset (10_state.md R34;
70_reset_and_hazards.md R200, R201). -/

namespace Sys2Proof.Machine

variable {s : State} {image : List Word}

/-- Between calls, the step that accepts a LOAD is `loadImage`. -/
theorem step_load {rest : List Command} (hidle : s.resuming = false) (hload : s.driver = .load image :: rest) :
    step s = .next (loadImage image { s with driver := rest }) := by
  rw [step_driver (.inl hidle), driverTurn_cons hload]
  rfl

theorem loadImage_of_fits (hfit : image.length ≤ s.params.memLimit) :
    loadImage image s = (s.loaded image).respond .ready := if_neg (Nat.not_lt.mpr hfit)

/-- After the reset, cell `a` holds the image's cell `a`, and 0 beyond the image. -/
@[simp] theorem cell_loaded (a : Nat) : (s.loaded image).cell a = image.getD a 0 := by
  simpa [State.cell] using read_ofImageAt image 0 a

@[simp] theorem cell_respond (r : Response) (a : Nat) : (s.respond r).cell a = s.cell a := rfl

/-- Settles O52: the step is `loadImage`, which for an image that fits is the reset followed by READY; the cells are
`cell_loaded`, and the other fields are the reset's. -/
theorem loadResets : Obligations.LoadResets := by
  intro s image rest hidle hload hfit
  refine ⟨(State.loaded { s with driver := rest } image).respond .ready, ?_, ?_, ?_, ?_⟩
  · rw [step_load hidle hload, loadImage_of_fits (s := { s with driver := rest }) hfit]
  · intro i v hv
    simp [hv]
  · intro a ha
    simp [ha]
  · simp [FaultCode.code]

end Sys2Proof.Machine
end

section
/-! PROOF. The memory unit's CHECK, READ and WRITE (20_memory.md R41 to R43, R46). -/

namespace Sys2Proof.Machine

variable {s : State} {a : Int}

/-! The address checks (R41). -/

theorem addressFault_of_neg {limit : Nat} (ha : a < 0) : addressFault limit a = some .addressError := if_pos ha

theorem addressFault_of_ge {limit : Nat} (h0 : 0 ≤ a) (ha : (limit : Int) ≤ a) :
    addressFault limit a = some .capacityError :=
  (if_neg (by omega)).trans (if_pos ha)

/-- A non-negative address raises CapacityError exactly where it is at or above MEM_LIMIT. -/
theorem addrCheck_capacity_iff (h0 : 0 ≤ a) :
    addrCheck a s = raise .capacityError a s ↔ (s.params.memLimit : Int) ≤ a := by
  refine ⟨fun h => ?_, fun h => addrCheck_fault (addressFault_of_ge h0 h)⟩
  by_contra hlt
  rw [addrCheck_ok (addressFault_eq_none.mpr ⟨h0, by omega⟩)] at h
  cases h

/-- Settles O11: the three outcomes are those of `addressFault`, and with MEM_LIMIT = 2^63 the second check is
`addrCheck_capacity_iff` at that limit. -/
theorem addrCheckOutcomes : Obligations.AddrCheckOutcomes := by
  intro s a
  refine ⟨fun hneg => addrCheck_fault (addressFault_of_neg hneg),
    fun h0 hge => addrCheck_fault (addressFault_of_ge h0 hge),
    fun h0 hlt => addrCheck_ok (addressFault_eq_none.mpr ⟨h0, hlt⟩), fun hdef h0 => ?_⟩
  rw [addrCheck_capacity_iff h0, hdef]
  simp only [Params.default]
  omega

/-! Reading and writing an address that passes the checks (R42, R43). -/

/-- Where every listed cell is below `mem_len`, a cell beyond it reads 0 (R46). -/
theorem cell_eq_zero_of_memLen_le {b : Nat} (hlisted : ∀ c ∈ s.mem, c.1 < s.memLen) (hb : s.memLen ≤ b) :
    s.cell b = 0 :=
  read_unlisted s.mem b fun c hc => ((hlisted c hc).trans_le hb).ne

/-- Growing twice for the same cell is growing once. -/
theorem grow_grow_same (n : Nat) : (s.grow n).grow n = s.grow n := by
  simp [grow_eq]

/-- A read that answered reads the same again, and the second read changes nothing. -/
theorem memRead_idem {t : State} {v : Word} (h : memRead a s = .ok v t) : memRead a t = .ok v t := by
  have hf := memRead_inv h
  rw [memRead_ok hf] at h
  obtain ⟨rfl, rfl⟩ := Res.ok.inj h
  rw [memRead_ok (by rwa [grow_params]), cell_grow, grow_grow_same]

/-- Settles O12: `memRead_fault` and `memRead_ok` with the growth written out, the zero beyond `mem_len`, and the
second read by `memRead_idem`. -/
theorem readReturnsCellAndGrows : Obligations.ReadReturnsCellAndGrows := by
  refine ⟨fun s a => ⟨fun f hf => memRead_fault hf, fun hf => ⟨?_, cell_eq_zero_of_memLen_le⟩⟩,
    fun s t a v h => memRead_idem h⟩
  rw [memRead_ok hf, grow_eq]

/-- Settles O13: the memory stored is `s.mem` with the one cell written, so each cell is by read after write. -/
theorem writeStoresOneCell : Obligations.WriteStoresOneCell := by
  intro s a v
  refine ⟨fun f hf => memWrite_fault hf, fun hf => ⟨s.mem.write a.toNat v, ?_, ?_, ?_, ?_⟩⟩
  · rw [memWrite_ok hf, grow_eq]
    rfl
  · exact read_write_same s.mem a.toNat v
  · exact fun b hb => read_write_other s.mem v hb
  · intro hlisted b hlen hb
    rw [read_write_other s.mem v hb]
    exact cell_eq_zero_of_memLen_le hlisted hlen

end Sys2Proof.Machine
end

section
/-! PROOF. The words the decoder refuses, and the digits it does not read (30_encoding.md R65, R66, R68, R69). -/

namespace Sys2Proof.Laws

variable {strict : Bool} {w : Word} {v : Nat}

/-! A word by its sign, and a word that no row of the table lists. -/

theorem decode_of_neg (h : w.toInt < 0) : decode strict w = .error .unknownOpcode := if_pos h

theorem decode_of_nonneg (h : 0 ≤ w.toInt) : decode strict w = decodeNat strict w.toNat := if_neg (by omega)

/-- The word of a number within INT64 decodes as that number. -/
theorem decode_ofNat (h : v ≤ 9223372036854775807) : decode strict (BitVec.ofNat 64 v) = decodeNat strict v := by
  have hv : (BitVec.ofNat 64 v).toNat = v := by simp only [BitVec.toNat_ofNat]; omega
  rw [decode_of_nonneg, hv]
  rw [BitVec.toInt_eq_toNat_cond, hv, if_pos (by omega)]
  omega

/-- The decoder's dispatch is closed: an opcode outside the table reaches its last arm. -/
theorem decodeNat_unlisted (h : opcodeTable (v % 100) = none) : decodeNat strict v = .error .unknownOpcode := by
  unfold decodeNat
  split
  case h_11 => rfl
  all_goals
    next hv =>
      rw [hv] at h
      cases h

/-! What the five formats have in common. -/

/-- A digit below weight 10^n is not seen to change when the digits from there on are dropped. -/
theorem digit_mod_pow {k n : Nat} (h : k < n) : digit k (v % 10 ^ n) = digit k v := by
  obtain ⟨d, rfl⟩ := Nat.exists_eq_add_of_lt h
  rw [digit, digit, show 10 ^ (k + d + 1) = 10 ^ k * 10 ^ (d + 1) by rw [← pow_add, Nat.add_assoc],
    Nat.mod_mul_right_div_self, Nat.mod_mod_of_dvd _ (dvd_pow_self 10 (Nat.succ_ne_zero d))]

theorem not_three_le_of_ofDigit {d : Nat} {m : Mode} (h : Mode.ofDigit d = some m) : ¬ 3 ≤ d := fun hd => by
  rw [ofDigit_none.mpr hd] at h
  cases h

/-- What an instruction is apart from its excess digits. -/
def opcodeAndModes (i : Instr) : Nat × Mode × Mode × Mode := (i.opcode, i.modes)

/-- `f` decodes words of `n` operands: it refuses a used mode digit that names no mode (R65), it refuses excess digits when
strict, and it gives the same error or the same opcode and modes without them when not (R66). -/
structure DecodesOperands (n : Nat) (f : Bool → Nat → Except DecodeError Instr) : Prop where
  badDigit : ∀ strict v k, 1 ≤ k → k ≤ n → 3 ≤ digit (k + 1) v → f strict v = .error .unknownMode
  strictExcess : ∀ v, v / 10 ^ (n + 2) ≠ 0 → f true v = .error .unknownMode
  ignoresExcess : ∀ v, (f false (v % 10 ^ (n + 2))).map opcodeAndModes = (f false v).map opcodeAndModes

theorem decodeF3W_decodesOperands {make : Mode → Mode → Mode → Nat → Instr}
    (hmake : ∀ m1 m2 m3 x y, opcodeAndModes (make m1 m2 m3 x) = opcodeAndModes (make m1 m2 m3 y)) :
    DecodesOperands 3 (decodeF3W · make ·) where
  badDigit strict v k h1 h3 hk := by
    unfold decodeF3W
    split
    · next d1 d2 d3 =>
      obtain rfl | rfl | rfl : k = 1 ∨ k = 2 ∨ k = 3 := by omega
      · exact absurd hk (not_three_le_of_ofDigit d1)
      · exact absurd hk (not_three_le_of_ofDigit d2)
      · exact absurd hk (not_three_le_of_ofDigit d3)
    · rfl
  strictExcess v hx := by
    unfold decodeF3W
    split
    · exact if_pos (by simpa using hx)
    · rfl
  ignoresExcess v := by
    simp only [decodeF3W, digit_mod_pow, Nat.reduceAdd, Nat.reduceLT, Bool.false_and, Bool.false_eq_true, ↓reduceIte]
    split
    · split
      · rfl
      · exact congrArg Except.ok (hmake ..)
    · rfl

theorem decodeF2R_decodesOperands {make : Mode → Mode → Nat → Instr}
    (hmake : ∀ m1 m2 x y, opcodeAndModes (make m1 m2 x) = opcodeAndModes (make m1 m2 y)) :
    DecodesOperands 2 (decodeF2R · make ·) where
  badDigit strict v k h1 h2 hk := by
    unfold decodeF2R
    split
    · next d1 d2 =>
      obtain rfl | rfl : k = 1 ∨ k = 2 := by omega
      · exact absurd hk (not_three_le_of_ofDigit d1)
      · exact absurd hk (not_three_le_of_ofDigit d2)
    · rfl
  strictExcess v hx := by
    unfold decodeF2R
    split
    · exact if_pos (by simpa using hx)
    · rfl
  ignoresExcess v := by
    simp only [decodeF2R, digit_mod_pow, Nat.reduceAdd, Nat.reduceLT, Bool.false_and, Bool.false_eq_true, ↓reduceIte]
    split
    · exact congrArg Except.ok (hmake ..)
    · rfl

theorem decodeF1R_decodesOperands {make : Mode → Nat → Instr}
    (hmake : ∀ m1 x y, opcodeAndModes (make m1 x) = opcodeAndModes (make m1 y)) :
    DecodesOperands 1 (decodeF1R · make ·) where
  badDigit strict v k h1 hn hk := by
    obtain rfl : k = 1 := by omega
    rw [decodeF1R, ofDigit_none.mpr hk]
  strictExcess v hx := by
    unfold decodeF1R
    split
    · exact if_pos (by simpa using hx)
    · rfl
  ignoresExcess v := by
    simp only [decodeF1R, digit_mod_pow, Nat.reduceAdd, Nat.reduceLT, Bool.false_and, Bool.false_eq_true, ↓reduceIte]
    split
    · exact congrArg Except.ok (hmake ..)
    · rfl

theorem decodeF1W_decodesOperands {make : Mode → Nat → Instr}
    (hmake : ∀ m1 x y, opcodeAndModes (make m1 x) = opcodeAndModes (make m1 y)) :
    DecodesOperands 1 (decodeF1W · make ·) where
  badDigit strict v k h1 hn hk := by
    obtain rfl : k = 1 := by omega
    rw [decodeF1W, ofDigit_none.mpr hk]
  strictExcess v hx := by
    unfold decodeF1W
    split
    · exact if_pos (by simpa using hx)
    · rfl
  ignoresExcess v := by
    simp only [decodeF1W, digit_mod_pow, Nat.reduceAdd, Nat.reduceLT, Bool.false_and, Bool.false_eq_true, ↓reduceIte]
    split
    · split
      · rfl
      · exact congrArg Except.ok (hmake ..)
    · rfl

theorem decodeF0_decodesOperands {make : Nat → Instr}
    (hmake : ∀ x y, opcodeAndModes (make x) = opcodeAndModes (make y)) :
    DecodesOperands 0 (decodeF0 · make ·) where
  badDigit strict v k h1 h0 hk := by omega
  strictExcess v hx := if_pos (by simpa using hx)
  ignoresExcess v := congrArg Except.ok (hmake ..)

/-- The words of a listed opcode are decoded by a format of the row's operand count. -/
theorem decodeNat_listed {opcode : Nat} {row : OpcodeRow} (h : opcodeTable opcode = some row) :
    ∃ f, DecodesOperands row.operandCount f ∧ ∀ strict v, v % 100 = opcode → decodeNat strict v = f strict v := by
  unfold opcodeTable at h
  split at h <;> cases h
  case h_1 =>
    exact ⟨_, decodeF3W_decodesOperands (make := .add) fun _ _ _ _ _ => rfl,
      fun _ _ hv => by simp only [decodeNat, hv]⟩
  case h_2 =>
    exact ⟨_, decodeF3W_decodesOperands (make := .multiply) fun _ _ _ _ _ => rfl,
      fun _ _ hv => by simp only [decodeNat, hv]⟩
  case h_3 =>
    exact ⟨_, decodeF1W_decodesOperands (make := .input) fun _ _ _ => rfl,
      fun _ _ hv => by simp only [decodeNat, hv]⟩
  case h_4 =>
    exact ⟨_, decodeF1R_decodesOperands (make := .output) fun _ _ _ => rfl,
      fun _ _ hv => by simp only [decodeNat, hv]⟩
  case h_5 =>
    exact ⟨_, decodeF2R_decodesOperands (make := .jumpIfTrue) fun _ _ _ _ => rfl,
      fun _ _ hv => by simp only [decodeNat, hv]⟩
  case h_6 =>
    exact ⟨_, decodeF2R_decodesOperands (make := .jumpIfFalse) fun _ _ _ _ => rfl,
      fun _ _ hv => by simp only [decodeNat, hv]⟩
  case h_7 =>
    exact ⟨_, decodeF3W_decodesOperands (make := .lessThan) fun _ _ _ _ _ => rfl,
      fun _ _ hv => by simp only [decodeNat, hv]⟩
  case h_8 =>
    exact ⟨_, decodeF3W_decodesOperands (make := .equals) fun _ _ _ _ _ => rfl,
      fun _ _ hv => by simp only [decodeNat, hv]⟩
  case h_9 =>
    exact ⟨_, decodeF1R_decodesOperands (make := .setRelativeBase) fun _ _ _ => rfl,
      fun _ _ hv => by simp only [decodeNat, hv]⟩
  case h_10 =>
    exact ⟨_, decodeF0_decodesOperands (make := .terminate) fun _ _ => rfl,
      fun _ _ hv => by simp only [decodeNat, hv]⟩

/-! The decoder on a word of a listed opcode. -/

section
variable {row : OpcodeRow} (h0 : 0 ≤ w.toInt) (hrow : opcodeTable (w.toNat % 100) = some row)
include h0 hrow

theorem decode_badDigit {k : Nat} (h1 : 1 ≤ k) (hn : k ≤ row.operandCount) (hk : 3 ≤ digit (k + 1) w.toNat) :
    decode strict w = .error .unknownMode := by
  obtain ⟨f, hf, hdecode⟩ := decodeNat_listed hrow
  rw [decode_of_nonneg h0, hdecode strict _ rfl, hf.badDigit strict _ k h1 hn hk]

theorem decode_strictExcess (hx : w.toNat / 10 ^ (row.operandCount + 2) ≠ 0) :
    decode true w = .error .unknownMode := by
  obtain ⟨f, hf, hdecode⟩ := decodeNat_listed hrow
  rw [decode_of_nonneg h0, hdecode true _ rfl, hf.strictExcess _ hx]

/-- Dropping the digits from 10^(n+2) on keeps the opcode, so the same format reads the shortened word. -/
theorem decode_ignoresExcess :
    (decode false (BitVec.ofNat 64 (w.toNat % 10 ^ (row.operandCount + 2)))).map opcodeAndModes =
      (decode false w).map opcodeAndModes := by
  obtain ⟨f, hf, hdecode⟩ := decodeNat_listed hrow
  have hopcode : w.toNat % 10 ^ (row.operandCount + 2) % 100 = w.toNat % 100 :=
    Nat.mod_mod_of_dvd _ (pow_dvd_pow 10 (Nat.le_add_left 2 row.operandCount))
  rw [decode_ofNat ((Nat.mod_le ..).trans (toInt_of_nonneg h0).2), decode_of_nonneg h0, hdecode false _ hopcode,
    hdecode false _ rfl, hf.ignoresExcess]

end

section
variable {r r' : Except DecodeError Instr} (h : r'.map opcodeAndModes = r.map opcodeAndModes)
include h

theorem ok_of_map_opcodeAndModes_eq {i' : Instr} (hr' : r' = .ok i') :
    ∃ i, r = .ok i ∧ i.opcode = i'.opcode ∧ i.modes = i'.modes := by
  subst hr'
  cases r with
  | ok i =>
    obtain ⟨hopcode, hmodes⟩ := Prod.mk.inj (Except.ok.inj h)
    exact ⟨i, rfl, hopcode.symm, hmodes.symm⟩
  | error e => cases h

theorem error_of_map_opcodeAndModes_eq {e : DecodeError} (hr' : r' = .error e) : r = .error e := by
  subst hr'
  cases r with
  | ok i => cases h
  | error e' => exact congrArg Except.error (Except.error.inj h).symm

end

end Sys2Proof.Laws

namespace Sys2Proof.Machine

open Sys2Proof.Laws

/-- A step whose word the decoder refuses takes the fault of the refusal, with the word (R70). -/
theorem step_decode_error {s : State} {e : DecodeError} (hs : s.Fetching)
    (he : decode s.params.strictModeDigits s.word = .error e) :
    step s = .next (takeFault (faultOfDecodeError e) s.word.toInt (s.grow s.pc)) := by
  obtain ⟨hresuming, hrunning, hpc⟩ := hs
  rw [step_serving hresuming hrunning, fetchDecode_ok hpc, he]
  rfl

/-- Settles O4: the decoder looks at the sign first, whatever the setting. -/
theorem negativeWordFaults : Obligations.NegativeWordFaults :=
  fun _ hs hneg => ⟨fun _ => decode_of_neg hneg, step_decode_error hs (decode_of_neg hneg), rfl⟩

/-- Settles O5: an opcode outside the table reaches the last arm of the decoder's dispatch, whatever the setting. -/
theorem unlistedOpcodeFaults : Obligations.UnlistedOpcodeFaults := by
  refine ⟨fun s hs h0 hnone => ?_, rfl, rfl⟩
  have hdecode (strict : Bool) : decode strict s.word = .error .unknownOpcode := by
    rw [decode_of_nonneg h0, decodeNat_unlisted hnone]
  exact ⟨hdecode, step_decode_error hs (hdecode _)⟩

/-- Settles O6: every format refuses a used digit that names no mode before it looks at anything else. -/
theorem badModeDigitFaults : Obligations.BadModeDigitFaults := by
  intro s row k hs h0 hrow h1 hn hk
  have hdecode (strict : Bool) : decode strict s.word = .error .unknownMode := decode_badDigit h0 hrow h1 hn hk
  exact ⟨hdecode, step_decode_error hs (hdecode _), rfl⟩

/-- Settles O7: the word and the word without its excess digits agree by `decode_ignoresExcess` where the decoder is not
strict, and `decode_strictExcess` is the refusal where it is. -/
theorem unusedDigitsIgnoredOrRefused : Obligations.UnusedDigitsIgnoredOrRefused := by
  refine ⟨fun w row h0 hrow => ⟨fun i' => ?_, fun e => ?_⟩, fun s row hs hstrict h0 hrow hx => ?_, rfl, rfl, rfl⟩
  · exact ok_of_map_opcodeAndModes_eq (decode_ignoresExcess h0 hrow)
  · exact error_of_map_opcodeAndModes_eq (decode_ignoresExcess h0 hrow)
  · exact step_decode_error hs (by rw [hstrict]; exact decode_strictExcess h0 hrow hx)

end Sys2Proof.Machine
end

section
/-! PROOF. The resume calls by the core's state: the repeated Fault, the misuses, and the completion of a suspended INPUT
(40_execution_cycle.md R90 to R95). -/

namespace Sys2Proof.Machine

variable {s : State} {c : Command} {rest : List Command}

/-- Between calls, a step accepts the driver's next command. -/
theorem step_command (hidle : s.resuming = false) (hdriver : s.driver = c :: rest) :
    step s = .next (acceptCommand c { s with driver := rest }) := by
  rw [step_driver (.inl hidle), driverTurn_cons hdriver]

/-- The resumes, with a value or without one, are the commands that the core accepts as a `resumeCall`. -/
theorem acceptCommand_of_resume (hc : c = .resume ∨ ∃ v, c = .resumeWith v) (t : State) :
    ∃ v, acceptCommand c t = resumeCall v t := by
  obtain rfl | ⟨v, rfl⟩ := hc
  · exact ⟨none, rfl⟩
  · exact ⟨some v, rfl⟩

/-- Between calls, an emitted response is all that changes. -/
theorem emit_of_idle (hidle : s.resuming = false) (r : Response) :
    s.emit r = { s with responses := s.responses ++ [r] } := by
  simp only [State.emit, State.respond, ← hidle]

/-! What a resume call does in each state (R90). -/

theorem resumeCall_faulted (h : s.state = .faulted) (v : Option Word) :
    resumeCall v s = s.emit (.fault s.faultCode s.faultPc s.faultInfo) := by
  simp only [resumeCall, h]

theorem resumeCall_halted (h : s.state = .halted) (v : Option Word) :
    resumeCall v s = takeFault .alreadyHaltedError 0 s := by
  simp only [resumeCall, h]

theorem resumeCall_awaiting_none (h : s.state = .awaitingInput) : resumeCall none s = s.emit (.needInput s.pc) := by
  simp only [resumeCall, h]

theorem resumeCall_running_some (h : s.state = .running) (v : Word) :
    resumeCall (some v) s = takeFault .inputProtocolError v.toInt s := by
  simp only [resumeCall, h]

/-- A supplied value completes the INPUT whose target exists, and the run starts (R92). -/
theorem resumeCall_awaiting_some (h : s.state = .awaitingInput) (ht : s.pendingTarget < s.params.memLimit) (v : Word) :
    resumeCall (some v) s =
      { s with
        mem := s.mem.write s.pendingTarget v
        memLen := max s.memLen (s.pendingTarget + 1)
        pc := s.pc + 2
        state := .running
        resuming := true } := by
  simp only [resumeCall, h, completeInput_ok ht, bind_ok, state_ok, State.startRun]

/-- No resume leaves Faulted (R94). -/
theorem resumeCall_keeps_faulted (h : s.state = .faulted) (v : Option Word) : (resumeCall v s).state = .faulted := by
  rw [resumeCall_faulted h, emit_state, h]

/-- Where the driver's turn leaves Faulted, its command was a LOAD. -/
theorem load_of_driverTurn_leaves_faulted (h : s.state = .faulted) (hleft : (driverTurn s).state ≠ .faulted) :
    ∃ c rest, s.driver = c :: rest ∧ ((∃ image, c = .load image) ∨ ∃ text, c = .loadText text) := by
  cases hdriver : s.driver with
  | nil => exact absurd h (driverTurn_nil hdriver ▸ hleft)
  | cons c rest =>
    rw [driverTurn_cons hdriver] at hleft
    cases c with
    | load image => exact ⟨_, _, rfl, .inl ⟨image, rfl⟩⟩
    | loadText text => exact ⟨_, _, rfl, .inr ⟨text, rfl⟩⟩
    | resume => exact absurd (resumeCall_keeps_faulted (s := { s with driver := rest }) h none) hleft
    | resumeWith v => exact absurd (resumeCall_keeps_faulted (s := { s with driver := rest }) h (some v)) hleft

/-- Settles O47: a resume in Faulted only emits the record, and a Faulted core's step is the driver's turn, in which no
resume leaves Faulted. -/
theorem faultedIsSticky : Obligations.FaultedIsSticky := by
  refine ⟨fun s c rest hidle hfaulted hdriver hc => ?_, fun s s' hfaulted hstep hleft => ?_⟩
  · obtain ⟨v, hv⟩ := acceptCommand_of_resume hc { s with driver := rest }
    rw [step_command hidle hdriver, hv, resumeCall_faulted (s := { s with driver := rest }) hfaulted,
      emit_of_idle (s := { s with driver := rest }) hidle]
  · rw [step_driver (.inr (by simp [hfaulted]))] at hstep
    obtain rfl := Host.Outcome.next.inj hstep
    exact load_of_driverTurn_leaves_faulted hfaulted hleft

/-- Settles O46: the resume takes AlreadyHaltedError, whose entry keeps `halted`, pc and memory; that pc is at the
TERMINATE is the invariant's. -/
theorem resumeOfHaltedFaults : Obligations.ResumeOfHaltedFaults := by
  intro s c rest hidle hhalted hdriver hc
  obtain ⟨v, hv⟩ := acceptCommand_of_resume hc { s with driver := rest }
  have hinv (hs : s.Inv) : s.halted = true ∧ s.word.toInt % 100 = 99 := by
    obtain ⟨-, hopcode, -⟩ := hs.terminated hhalted
    exact ⟨hs.haltedState hhalted, hopcode⟩
  refine ⟨_, ?_, rfl, rfl, rfl, rfl, rfl, rfl, hinv, rfl, rfl, rfl⟩
  rw [step_command hidle hdriver, hv, resumeCall_halted (s := { s with driver := rest }) hhalted]

/-- Settles O48: the resume calls without a value in AwaitingInput and with one in Running. -/
theorem misusedResumes : Obligations.MisusedResumes := by
  refine ⟨fun s rest hidle hawaiting hdriver => ?_, fun s v rest hidle hrunning hdriver => ?_, rfl⟩
  · rw [step_command hidle hdriver, acceptCommand, resumeCall_awaiting_none (s := { s with driver := rest }) hawaiting,
      emit_of_idle (s := { s with driver := rest }) hidle]
  · rw [step_command hidle hdriver, acceptCommand, resumeCall_running_some (s := { s with driver := rest }) hrunning]

/-- Settles O49: the resume call with a value in AwaitingInput. -/
theorem suppliedValueCompletesInput : Obligations.SuppliedValueCompletesInput := by
  intro s v rest hidle hawaiting htarget hdriver
  rw [step_command hidle hdriver, acceptCommand,
    resumeCall_awaiting_some (s := { s with driver := rest }) hawaiting htarget]

end Sys2Proof.Machine
end

section
/-! PROOF. Operand resolution mode by mode, and the modes a write operand can have (30_encoding.md R67;
40_execution_cycle.md R80 to R82). -/

namespace Sys2Proof.Laws

/-- No write operand of the instruction is Immediate. -/
def TargetsAllowed (i : Instr) : Prop :=
  (i.writeOperand = some 1 → i.modes.1 ≠ .immediate) ∧ (i.writeOperand = some 3 → i.modes.2.2 ≠ .immediate)

theorem targetsAllowed_of_reads {i : Instr} (h : i.writeOperand = none) : TargetsAllowed i := by
  simp [TargetsAllowed, h]

theorem targetsAllowed_of_first {i : Instr} (h : i.writeOperand = some 1) (hm : i.modes.1 ≠ .immediate) :
    TargetsAllowed i := by
  simp [TargetsAllowed, h, hm]

theorem targetsAllowed_of_third {i : Instr} (h : i.writeOperand = some 3) (hm : i.modes.2.2 ≠ .immediate) :
    TargetsAllowed i := by
  simp [TargetsAllowed, h, hm]

/-- The decoder gives no Immediate target: the two formats that write refuse it (R67). -/
theorem decodeNat_targetsAllowed {strict : Bool} {w : Nat} {i : Instr} (h : decodeNat strict w = .ok i) :
    TargetsAllowed i := by
  unfold decodeNat at h
  split at h
  case h_1 => obtain ⟨_, _, _, -, -, -, -, hm, rfl⟩ := decodeF3W_ok h; exact targetsAllowed_of_third rfl hm
  case h_2 => obtain ⟨_, _, _, -, -, -, -, hm, rfl⟩ := decodeF3W_ok h; exact targetsAllowed_of_third rfl hm
  case h_3 => obtain ⟨_, -, -, hm, rfl⟩ := decodeF1W_ok h; exact targetsAllowed_of_first rfl hm
  case h_4 => obtain ⟨_, -, -, rfl⟩ := decodeF1R_ok h; exact targetsAllowed_of_reads rfl
  case h_5 => obtain ⟨_, _, -, -, -, rfl⟩ := decodeF2R_ok h; exact targetsAllowed_of_reads rfl
  case h_6 => obtain ⟨_, _, -, -, -, rfl⟩ := decodeF2R_ok h; exact targetsAllowed_of_reads rfl
  case h_7 => obtain ⟨_, _, _, -, -, -, -, hm, rfl⟩ := decodeF3W_ok h; exact targetsAllowed_of_third rfl hm
  case h_8 => obtain ⟨_, _, _, -, -, -, -, hm, rfl⟩ := decodeF3W_ok h; exact targetsAllowed_of_third rfl hm
  case h_9 => obtain ⟨_, -, -, rfl⟩ := decodeF1R_ok h; exact targetsAllowed_of_reads rfl
  case h_10 => obtain ⟨-, rfl⟩ := decodeF0_ok h; exact targetsAllowed_of_reads rfl
  case h_11 => cases h

theorem writeOperand_cases (i : Instr) : i.writeOperand = none ∨ i.writeOperand = some 1 ∨ i.writeOperand = some 3 := by
  cases i <;> simp [Instr.writeOperand]

end Sys2Proof.Laws

namespace Sys2Proof.Machine

open Sys2Proof.Laws

variable {s : State} {m : Mode} {raw w : Word} {a : Int}

/-- A read operand that has an address is the memory read of it (R80). -/
theorem resolveRead_of_addr (h : operandAddr m s.rb raw = some a) : resolveRead m raw s = memRead a s := by
  simp only [resolveRead, h]

/-- A write operand that has an address is the check of it (R82). -/
theorem resolveWrite_of_addr (h : operandAddr m s.rb raw = some a) : resolveWrite m raw w s = addrCheck a s := by
  simp only [resolveWrite, h]

/-- An operand whose address does not exist faults with the address, whether it is read or written. -/
theorem resolve_raises {f : FaultCode} (h : operandAddr m s.rb raw = some a)
    (hf : addressFault s.params.memLimit a = some f) :
    resolveRead m raw s = raise f a s ∧ resolveWrite m raw w s = raise f a s := by
  rw [resolveRead_of_addr h, resolveWrite_of_addr h]
  exact ⟨memRead_fault hf, addrCheck_fault hf⟩

/-- The target check leaves the state as it is. -/
theorem resolveWrite_state {n : Nat} {t : State} (h : resolveWrite m raw w s = .ok n t) : t = s := by
  obtain ⟨a, ha, hf, -⟩ := resolveWrite_inv h
  rw [resolveWrite_of_addr ha, addrCheck_ok hf] at h
  exact (Res.ok.inj h).2.symm

/-- An operand's target is `t` exactly where `t` is its address and exists. -/
theorem target_eq_some_iff {k t : Nat} :
    s.target m k = some t ↔ operandAddr m s.rb (s.raw k) = some (t : Int) ∧ t < s.params.memLimit := by
  refine ⟨target_some, fun ⟨haddr, ht⟩ => ?_⟩
  simp [State.target, haddr, addressFault_natCast ht]

/-- Settles O60: each mode's address is `operandAddr` by definition; the accesses and their faults follow from the
address, its range is `operandAddr_range`, and the decoder's targets are `decodeNat_targetsAllowed`. -/
theorem modesResolveOperands : Obligations.ModesResolveOperands := by
  refine ⟨fun raw w s => ?_, fun _ _ _ _ _ _ => resolveWrite_state, fun strict w i hdecode => ?_,
    fun s k => ⟨rfl, rfl, rfl, rfl, rfl, rfl, rfl⟩, fun _ _ _ _ => target_eq_some_iff⟩
  · have hposition : operandAddr .position s.rb raw = some raw.toInt := rfl
    have hrelative : operandAddr .relative s.rb raw = some (s.rb.toInt + raw.toInt) := rfl
    obtain ⟨hlow, hhigh⟩ := operandAddr_range hrelative
    exact ⟨resolveRead_of_addr hposition, rfl, resolveRead_of_addr hrelative, resolveWrite_of_addr hposition,
      resolveWrite_of_addr hrelative, hlow, hhigh,
      fun hneg => (resolve_raises (w := w) hposition (addressFault_of_neg hneg)).1,
      fun hneg => resolve_raises hrelative (addressFault_of_neg hneg),
      fun hge h0 => resolve_raises hrelative (addressFault_of_ge h0 hge)⟩
  · obtain ⟨hfirst, hthird⟩ := decodeNat_targetsAllowed (decode_ok hdecode).2
    exact ⟨hfirst, hthird, writeOperand_cases i⟩

end Sys2Proof.Machine
end

section
/-! PROOF. The word of a decoded instruction is the instruction's encoding, and a step whose sum or product leaves INT64
(30_encoding.md R60; 41_arithmetic.md R111). -/

namespace Sys2Proof.Laws

section
variable {opcode w : Nat} {m1 m2 m3 : Mode} (hopcode : w % 100 = opcode) (hm1 : digit 2 w = m1.toDigit)
include hopcode hm1

/-- A word is the sum of its fields at their weights; one lemma for each number of mode digits (R60). -/
theorem fields_sum_one : opcode + 100 * m1.toDigit + 1000 * (w / 1000) = w := by
  rw [digit_two] at hm1
  omega

theorem fields_sum_two (hm2 : digit 3 w = m2.toDigit) :
    opcode + 100 * m1.toDigit + 1000 * m2.toDigit + 10000 * (w / 10000) = w := by
  rw [digit_two] at hm1
  rw [digit_three] at hm2
  omega

theorem fields_sum_three (hm2 : digit 3 w = m2.toDigit) (hm3 : digit 4 w = m3.toDigit) :
    opcode + 100 * m1.toDigit + 1000 * m2.toDigit + 10000 * m3.toDigit + 100000 * (w / 100000) = w := by
  rw [digit_two] at hm1
  rw [digit_three] at hm2
  rw [digit_four] at hm3
  omega

end

/-- No digit of the word is lost: the excess digits are part of the decoded instruction. -/
theorem encodeNat_of_decodeNat {strict : Bool} {w : Nat} {i : Instr} (h : decodeNat strict w = .ok i) :
    encodeNat i = w := by
  unfold decodeNat at h
  split at h
  case h_1 hw => obtain ⟨_, _, _, d1, d2, d3, -, -, rfl⟩ := decodeF3W_ok h; exact fields_sum_three hw d1 d2 d3
  case h_2 hw => obtain ⟨_, _, _, d1, d2, d3, -, -, rfl⟩ := decodeF3W_ok h; exact fields_sum_three hw d1 d2 d3
  case h_3 hw => obtain ⟨_, d1, -, -, rfl⟩ := decodeF1W_ok h; exact fields_sum_one hw d1
  case h_4 hw => obtain ⟨_, d1, -, rfl⟩ := decodeF1R_ok h; exact fields_sum_one hw d1
  case h_5 hw => obtain ⟨_, _, d1, d2, -, rfl⟩ := decodeF2R_ok h; exact fields_sum_two hw d1 d2
  case h_6 hw => obtain ⟨_, _, d1, d2, -, rfl⟩ := decodeF2R_ok h; exact fields_sum_two hw d1 d2
  case h_7 hw => obtain ⟨_, _, _, d1, d2, d3, -, -, rfl⟩ := decodeF3W_ok h; exact fields_sum_three hw d1 d2 d3
  case h_8 hw => obtain ⟨_, _, _, d1, d2, d3, -, -, rfl⟩ := decodeF3W_ok h; exact fields_sum_three hw d1 d2 d3
  case h_9 hw => obtain ⟨_, d1, -, rfl⟩ := decodeF1R_ok h; exact fields_sum_one hw d1
  case h_10 hw => obtain ⟨-, rfl⟩ := decodeF0_ok h; rw [encodeNat]; omega
  case h_11 => cases h

/-- A word that decodes is the word of the instruction it decodes to. -/
theorem encode_of_decode {strict : Bool} {w : Word} {i : Instr} (h : decode strict w = .ok i) : encode i = w := by
  rw [encode, encodeNat_of_decodeNat (decode_ok h).2, BitVec.ofNat_toNat, BitVec.setWidth_eq]

end Sys2Proof.Laws

namespace Sys2Proof.Machine

open Sys2Proof.Laws

variable {s : State}

/-- A step whose word decodes runs the instruction, in memory grown to hold the word (40_execution_cycle.md R85). -/
theorem step_decode_ok {i : Instr} (hs : s.Fetching) (hdecode : decode s.params.strictModeDigits s.word = .ok i) :
    step s = exec i (s.grow s.pc) := by
  obtain ⟨hresuming, hrunning, hpc⟩ := hs
  rw [step_serving hresuming hrunning, fetchDecode_ok hpc, hdecode]
  rfl

theorem reachable_grow {a k : Nat} {m : Mode} : (s.grow a).reachable m k ↔ s.reachable m k := by
  simp [State.reachable]

/-- The reads of the raw operands grow memory past the word, so the growth for the fetch is part of theirs. -/
theorem lenReads_grow_pc (n : Nat) (m1 m2 : Mode) : (s.grow s.pc).lenReads n m1 m2 = s.lenReads n m1 m2 := by
  simp only [State.lenReads, State.lenRaws, reach_grow, grow_memLen, grow_pc]
  omega

/-- An ALU instruction met in a step, whose operands exist and whose exact result is outside INT64, faults with the
word at pc (R111). -/
theorem step_alu_overflow {i : Instr} {op : AluOp} {m1 m2 m3 : Mode} {t : Nat} (hs : s.Fetching)
    (hraws : s.rawsExist 3) (h1 : s.reachable m1 1) (h2 : s.reachable m2 2) (h3 : s.target m3 3 = some t)
    (hdecode : decode s.params.strictModeDigits s.word = .ok i)
    (hexec : exec i (s.grow s.pc) = (aluInstr op m1 m2 m3 (encode i) (s.grow s.pc)).outcome)
    (hover : ¬ in64 (aluExact op (s.operand m1 1) (s.operand m2 2))) :
    step s = .next (takeFault .overflowError s.word.toInt { s with memLen := s.lenReads 3 m1 m2 }) := by
  have hfault : aluInstr op m1 m2 m3 s.word (s.grow s.pc) = raise .overflowError s.word.toInt _ :=
    aluInstr_overflow (by simpa using hraws) (reachable_grow.mpr h1) (reachable_grow.mpr h2) (by rwa [target_grow])
      (by simpa using alu_none hover)
  rw [step_decode_ok hs hdecode, hexec, encode_of_decode hdecode, hfault, outcome_raise, lenReads_grow_pc, grow_eq]

/-- Settles O28: ADD and MULTIPLY are the ALU instructions whose exact results are the sum and the product. -/
theorem arithmeticOverflowFaults : Obligations.ArithmeticOverflowFaults := by
  intro m1 m2 m3 x t s hs hraws h1 h2 h3 hoverflow
  refine ⟨?_, rfl⟩
  obtain ⟨hdecode, hsum⟩ | ⟨hdecode, hproduct⟩ := hoverflow
  · exact step_alu_overflow (op := .add) hs hraws h1 h2 h3 hdecode rfl hsum
  · exact step_alu_overflow (op := .mul) hs hraws h1 h2 h3 hdecode rfl hproduct

end Sys2Proof.Machine
end

section
/-! PROOF. The target of a taken jump: a negative one faults at the jump, one at or above MEM_LIMIT at the next fetch
(43_jumps.md R132; 20_memory.md R45). -/

namespace Sys2Proof.Machine

variable {s : State}

/-- A taken jump to a negative target faults with the target; pc stays, and memory has grown for the reads. -/
theorem jumpInstr_negative {sense : Bool} {m1 m2 : Mode} (hraws : s.rawsExist 2) (h1 : s.reachable m1 1)
    (h2 : s.reachable m2 2) (htaken : truth (s.operand m1 1) = sense) (hneg : (s.operand m2 2).toInt < 0) :
    jumpInstr sense m1 m2 s =
      raise .addressError (s.operand m2 2).toInt { s with memLen := s.lenReads 2 m1 m2 } := by
  rw [jumpInstr_taken hraws h1 h2 htaken, jumpTo_negative hneg]

/-- A step whose word does not exist takes CapacityError with pc, and nothing grows. -/
theorem step_fetch_beyond_limit (hresuming : s.resuming = true) (hrunning : s.state = .running)
    (hpc : s.params.memLimit ≤ s.pc) : step s = .next (takeFault .capacityError (s.pc : Int) s) := by
  rw [step_serving hresuming hrunning, fetchDecode, memRead_fault (addressFault_natCast_ge hpc), bind_raise]
  rfl

/-- Settles O30: both jumps are `jumpInstr`, whose taken end is `jumpTo`; a target that `jumpTo` let through is the pc of
the next fetch. -/
theorem jumpTargetChecks : Obligations.JumpTargetChecks := by
  refine ⟨fun m1 m2 x s hraws h1 h2 hneg => ⟨fun hnonzero => ?_, fun hzero => ?_⟩, fun _ _ h0 => jumpTo_ok h0,
    fun t s hresuming hrunning hlimit => ?_⟩
  · exact congrArg Res.outcome (jumpInstr_negative hraws h1 h2 (truth_eq_true.mpr hnonzero) hneg)
  · exact congrArg Res.outcome (jumpInstr_negative hraws h1 h2 (truth_eq_false.mpr hzero) hneg)
  · have hpc : ((t.toInt.toNat : Nat) : Int) = t.toInt := Int.toNat_of_nonneg (by omega)
    have hbeyond : s.params.memLimit ≤ t.toInt.toNat := by omega
    rw [step_fetch_beyond_limit (s := { s with pc := t.toInt.toNat }) hresuming hrunning hbeyond, hpc]

end Sys2Proof.Machine
end

section
/-! PROOF. The round trips between words and instructions (30_encoding.md R60, R66, R67, R70, R72). -/

namespace Sys2Proof.Laws

/-! Each format reads back the fields of a word: the converses of `decodeF3W_ok` and its companions. -/

section
variable {strict : Bool} {w x : Nat} {m1 m2 m3 : Mode} (hs : NoExcess strict x)
include hs

theorem decodeF3W_of_fields {make : Mode → Mode → Mode → Nat → Instr} (h1 : digit 2 w = m1.toDigit)
    (h2 : digit 3 w = m2.toDigit) (h3 : digit 4 w = m3.toDigit) (hx : w / 10 ^ 5 = x) (hm : m3 ≠ .immediate) :
    decodeF3W strict make w = .ok (make m1 m2 m3 x) := by
  simp only [decodeF3W, h1, h2, h3, ofDigit_toDigit, hx, hs, hm, Bool.false_eq_true, ↓reduceIte]

theorem decodeF2R_of_fields {make : Mode → Mode → Nat → Instr} (h1 : digit 2 w = m1.toDigit)
    (h2 : digit 3 w = m2.toDigit) (hx : w / 10 ^ 4 = x) : decodeF2R strict make w = .ok (make m1 m2 x) := by
  simp only [decodeF2R, h1, h2, ofDigit_toDigit, hx, hs, Bool.false_eq_true, ↓reduceIte]

theorem decodeF1R_of_fields {make : Mode → Nat → Instr} (h1 : digit 2 w = m1.toDigit) (hx : w / 10 ^ 3 = x) :
    decodeF1R strict make w = .ok (make m1 x) := by
  simp only [decodeF1R, h1, ofDigit_toDigit, hx, hs, Bool.false_eq_true, ↓reduceIte]

theorem decodeF1W_of_fields {make : Mode → Nat → Instr} (h1 : digit 2 w = m1.toDigit) (hx : w / 10 ^ 3 = x)
    (hm : m1 ≠ .immediate) : decodeF1W strict make w = .ok (make m1 x) := by
  simp only [decodeF1W, h1, ofDigit_toDigit, hx, hs, hm, Bool.false_eq_true, ↓reduceIte]

theorem decodeF0_of_fields {make : Nat → Instr} (hx : w / 10 ^ 2 = x) : decodeF0 strict make w = .ok (make x) := by
  simp only [decodeF0, hx, hs, Bool.false_eq_true, ↓reduceIte]

end

variable {strict : Bool} {w : Word} {i : Instr}

/-- An instruction with no Immediate target, and no excess digits where the decoder is strict, is read back from the sum
of its fields: the opcode selects its format, and the format reads each of its digits. -/
theorem decodeNat_encodeNat (ht : TargetsAllowed i) (hs : NoExcess strict i.excess) :
    decodeNat strict (encodeNat i) = .ok i := by
  obtain ⟨hopcode, h1, h2, h3, hx⟩ := digits i
  obtain ⟨hfirst, hthird⟩ := ht
  unfold decodeNat
  rw [hopcode]
  cases i with
  | add => exact decodeF3W_of_fields hs (h1 (Nat.le_add_left 1 2)) (h2 (Nat.le_succ 2)) (h3 le_rfl) hx (hthird rfl)
  | multiply => exact decodeF3W_of_fields hs (h1 (Nat.le_add_left 1 2)) (h2 (Nat.le_succ 2)) (h3 le_rfl) hx (hthird rfl)
  | input => exact decodeF1W_of_fields hs (h1 le_rfl) hx (hfirst rfl)
  | output => exact decodeF1R_of_fields hs (h1 le_rfl) hx
  | jumpIfTrue => exact decodeF2R_of_fields hs (h1 (Nat.le_succ 1)) (h2 le_rfl) hx
  | jumpIfFalse => exact decodeF2R_of_fields hs (h1 (Nat.le_succ 1)) (h2 le_rfl) hx
  | lessThan => exact decodeF3W_of_fields hs (h1 (Nat.le_add_left 1 2)) (h2 (Nat.le_succ 2)) (h3 le_rfl) hx (hthird rfl)
  | equals => exact decodeF3W_of_fields hs (h1 (Nat.le_add_left 1 2)) (h2 (Nat.le_succ 2)) (h3 le_rfl) hx (hthird rfl)
  | setRelativeBase => exact decodeF1R_of_fields hs (h1 le_rfl) hx
  | terminate => exact decodeF0_of_fields hs hx

theorem writable_iff {m : Mode} : m.writable = true ↔ m ≠ .immediate := by cases m <;> decide

theorem excessFits_iff {most x : Nat} : excessFits strict most x = true ↔ NoExcess strict x ∧ x ≤ most := by
  cases strict
  · simp [excessFits]
  · simp only [excessFits, ↓reduceIte, beq_iff_eq, NoExcess, Bool.true_and, bne_eq_false_iff_eq]
    exact ⟨fun h => ⟨h, h ▸ Nat.zero_le _⟩, And.left⟩

/-! The bounds of `wellFormed` are the ones that leave the word within INT64 (R72). -/

section
variable {opcode d1 d2 d3 x : Nat} (hopcode : opcode ≤ 9) (h1 : d1 ≤ 2)
include hopcode h1

theorem word_fits_three (h2 : d2 ≤ 2) (h3 : d3 ≤ 2) :
    opcode + 100 * d1 + 1000 * d2 + 10000 * d3 + 100000 * x ≤ 9223372036854775807 ↔ x ≤ 92233720368547 := by omega

theorem word_fits_two (h2 : d2 ≤ 2) :
    opcode + 100 * d1 + 1000 * d2 + 10000 * x ≤ 9223372036854775807 ↔ x ≤ 922337203685477 := by omega

theorem word_fits_one : opcode + 100 * d1 + 1000 * x ≤ 9223372036854775807 ↔ x ≤ 9223372036854775 := by omega

end

theorem word_fits_zero {x : Nat} : 99 + 100 * x ≤ 9223372036854775807 ↔ x ≤ 92233720368547757 := by omega

/-- Well-formedness, the same three checks for every instruction. -/
theorem wellFormed_iff :
    i.wellFormed strict = true ↔
      TargetsAllowed i ∧ NoExcess strict i.excess ∧ encodeNat i ≤ 9223372036854775807 := by
  cases i <;>
    simp [Instr.wellFormed, TargetsAllowed, Instr.writeOperand, Instr.modes, Instr.excess, encodeNat, writable_iff,
      excessFits_iff, word_fits_three, word_fits_two, word_fits_one, word_fits_zero, toDigit_le]

/-- Settles O2: the word of a well-formed instruction is within INT64, so the decoder reads the sum of its fields. -/
theorem decodeEncodeRoundTrip : Obligations.DecodeEncodeRoundTrip := by
  intro strict i hwf
  obtain ⟨ht, hs, -⟩ := wellFormed_iff.mp hwf
  rw [encode, decode_ofNat (wordFits i strict hwf), decodeNat_encodeNat ht hs]

/-- An instruction's opcode selects its own row of the table (R62). -/
theorem opcodeTable_opcode (i : Instr) : opcodeTable i.opcode = some ⟨i.operandCount, i.writeOperand⟩ := by
  cases i <;> rfl

/-- The strict decoder accepts no excess digits (R66). -/
theorem noExcess_of_decode (h : decode strict w = .ok i) : NoExcess strict i.excess := by
  obtain ⟨h0, hnat⟩ := decode_ok h
  cases strict with
  | false => rfl
  | true =>
    obtain ⟨-, -, -, -, hexcess⟩ := digits i
    have hrow := opcodeTable_opcode i
    rw [encodeNat_of_decodeNat hnat] at hexcess
    rw [← decodeNat_opcode hnat] at hrow
    by_contra hx
    have hrefused := decode_strictExcess h0 hrow (by simpa [hexcess] using hx)
    rw [h] at hrefused
    cases hrefused

/-- Settles O3: the decoded instruction's fields are the word's digits, so the word is their sum; the three checks of
well-formedness are the decoder's. -/
theorem encodeDecodeRoundTrip : Obligations.EncodeDecodeRoundTrip := by
  intro strict w i h
  obtain ⟨h0, hnat⟩ := decode_ok h
  have hfits : encodeNat i ≤ 9223372036854775807 := encodeNat_of_decodeNat hnat ▸ (toInt_of_nonneg h0).2
  exact ⟨wellFormed_iff.mpr ⟨decodeNat_targetsAllowed hnat, noExcess_of_decode h, hfits⟩, encode_of_decode h⟩

/-- Settles O1: eleven closed words, which the decoder evaluates. -/
theorem decodeSpecWords : Obligations.DecodeSpecWords := by
  unfold Obligations.DecodeSpecWords
  decide

end Sys2Proof.Laws
end

section
/-! PROOF. An Immediate write target (30_encoding.md R67, R70). -/

namespace Sys2Proof.Laws

variable {strict : Bool} {w : Nat}

theorem exists_ofDigit {d : Nat} (h : d ≤ 2) : ∃ m, Mode.ofDigit d = some m :=
  Option.ne_none_iff_exists'.mp fun hnone => by
    have := ofDigit_none.mp hnone
    omega

theorem ofDigit_one : Mode.ofDigit 1 = some .immediate := rfl

/-- A three-operand word that passes the mode and excess checks and has an Immediate target. -/
theorem decodeF3W_immediate {make : Mode → Mode → Mode → Nat → Instr} (h1 : digit 2 w ≤ 2) (h2 : digit 3 w ≤ 2)
    (h3 : digit 4 w = 1) (hx : NoExcess strict (w / 10 ^ 5)) :
    decodeF3W strict make w = .error .invalidWriteMode := by
  obtain ⟨m1, hm1⟩ := exists_ofDigit h1
  obtain ⟨m2, hm2⟩ := exists_ofDigit h2
  simp only [decodeF3W, hm1, hm2, h3, ofDigit_one, hx, Bool.false_eq_true, ↓reduceIte]

theorem decodeF1W_immediate {make : Mode → Nat → Instr} (h1 : digit 2 w = 1) (hx : NoExcess strict (w / 10 ^ 3)) :
    decodeF1W strict make w = .error .invalidWriteMode := by
  simp only [decodeF1W, h1, ofDigit_one, hx, Bool.false_eq_true, ↓reduceIte]

/-- The five opcodes that write are those of the two formats that refuse an Immediate target. -/
theorem decodeNat_immediateTarget {row : OpcodeRow} {k : Nat} (hrow : opcodeTable (w % 100) = some row)
    (hk : row.writeOperand = some k) (htarget : digit (k + 1) w = 1)
    (hmodes : ∀ j, 1 ≤ j → j ≤ row.operandCount → digit (j + 1) w ≤ 2)
    (hx : NoExcess strict (w / 10 ^ (row.operandCount + 2))) : decodeNat strict w = .error .invalidWriteMode := by
  unfold opcodeTable at hrow
  unfold decodeNat
  split at hrow <;> cases hrow <;> cases hk
  case h_1 | h_2 | h_7 | h_8 =>
    exact decodeF3W_immediate (hmodes 1 le_rfl (Nat.le_add_left 1 2)) (hmodes 2 (Nat.le_succ 1) (Nat.le_succ 2)) htarget hx
  case h_3 => exact decodeF1W_immediate htarget hx

end Sys2Proof.Laws

namespace Sys2Proof.Machine

open Sys2Proof.Laws

/-- Settles O8: the decoder's last check refuses the word, and the refusal is taken before any operand is fetched. -/
theorem immediateTargetFaults : Obligations.ImmediateTargetFaults := by
  intro s row k hs h0 hrow hk htarget hmodes hexcess
  have hx : NoExcess s.params.strictModeDigits (s.word.toNat / 10 ^ (row.operandCount + 2)) := by
    cases hstrict : s.params.strictModeDigits with
    | false => rfl
    | true => simpa using hexcess hstrict
  have hdecode : decode s.params.strictModeDigits s.word = .error .invalidWriteMode := by
    rw [decode_of_nonneg h0, decodeNat_immediateTarget hrow hk htarget hmodes hx]
  exact ⟨step_decode_error hs hdecode, rfl⟩

end Sys2Proof.Machine
end

section
/-! PROOF. The decoder's output ports (30_encoding.md R70; 60_exceptions.md R170). -/

namespace Sys2Proof.Laws

/-- A field the instruction does not use reads as Position, whose digit is 0 (R70). -/
theorem modes_unused (i : Instr) :
    (¬ 1 ≤ i.operandCount → i.modes.1 = .position) ∧ (¬ 2 ≤ i.operandCount → i.modes.2.1 = .position) ∧
    (¬ 3 ≤ i.operandCount → i.modes.2.2 = .position) := by
  cases i <;> simp [Instr.operandCount, Instr.modes]

/-- A mode port holds the digit of its mode. -/
theorem modePort_toNat (m : Mode) : (BitVec.ofNat 2 m.toDigit).toNat = m.toDigit := by cases m <;> rfl

/-- The ports of opcode, count, length and write operand are wide enough for every row of the table. -/
theorem ports_toNat (i : Instr) :
    i.ports.kind.toNat = i.opcode ∧ i.ports.n.toNat = i.operandCount ∧ i.ports.length.toNat = i.operandCount + 1 ∧
    (if i.ports.writeIndex = 0 then none else some i.ports.writeIndex.toNat) = i.writeOperand := by
  cases i <;> exact ⟨rfl, rfl, rfl, rfl⟩

variable {strict : Bool} {w : Word}

theorem decoderPorts_ok_iff {p : DecoderPorts} :
    decoderPorts strict w = .ok p ↔ ∃ i, decode strict w = .ok i ∧ i.ports = p := by
  cases hd : decode strict w <;> simp [decoderPorts, hd]

theorem decodeError_code_inj {e e' : DecodeError} (h : e.code = e'.code) : e = e' := by
  cases e <;> cases e' <;> simp_all [DecodeError.code]

/-- `fault_code` tells the decoder's errors apart. -/
theorem decoderPorts_error_iff (e : DecodeError) :
    decoderPorts strict w = .error e.code ↔ decode strict w = .error e := by
  cases hd : decode strict w with
  | ok i => simp [decoderPorts, hd]
  | error e' => simpa [decoderPorts, hd] using ⟨decodeError_code_inj, congrArg _⟩

/-- Settles O10: the ports are those of the decoded instruction, whose fields are the digits of the word (`digits`). -/
theorem decoderPortsReadTheWord : Obligations.DecoderPortsReadTheWord := by
  refine ⟨fun strict w p hp => ?_, fun strict w => ⟨?_, decoderPorts_error_iff .unknownOpcode,
    decoderPorts_error_iff .invalidWriteMode, decoderPorts_error_iff .unknownMode⟩⟩
  · obtain ⟨i, hdecode, rfl⟩ := decoderPorts_ok_iff.mp hp
    obtain ⟨hopcode, h1, h2, h3, -⟩ := digits i
    rw [encodeNat_of_decodeNat (decode_ok hdecode).2] at hopcode h1 h2 h3
    obtain ⟨hkind, hn, hlength, hwrite⟩ := ports_toNat i
    obtain ⟨hu1, hu2, hu3⟩ := modes_unused i
    rw [hkind, hn, hlength, hwrite, hopcode, opcodeTable_opcode]
    refine ⟨rfl, rfl, rfl, ?_, ?_, ?_⟩
    · refine (modePort_toNat _).trans ?_
      split
      · next h => exact (h1 h).symm
      · next h => rw [hu1 h]; rfl
    · refine (modePort_toNat _).trans ?_
      split
      · next h => exact (h2 h).symm
      · next h => rw [hu2 h]; rfl
    · refine (modePort_toNat _).trans ?_
      split
      · next h => exact (h3 h).symm
      · next h => rw [hu3 h]; rfl
  · constructor
    · rintro ⟨p, hp⟩
      obtain ⟨i, hi, -⟩ := decoderPorts_ok_iff.mp hp
      exact ⟨i, hi⟩
    · rintro ⟨i, hi⟩
      exact ⟨_, decoderPorts_ok_iff.mpr ⟨i, hi, rfl⟩⟩

end Sys2Proof.Laws
end

section
/-! PROOF. Canonical memories that read the same are equal (20_memory.md R46). -/

namespace Sys2Proof.Machine

/-- A canonical memory lists exactly the cells that do not read 0, with what they read. -/
theorem mem_iff_read {m : Memory} (h : m.wf) {c : Nat × Word} : c ∈ m ↔ c.2 ≠ 0 ∧ m.read c.1 = c.2 := by
  refine ⟨fun hc => ⟨h.2 c hc, read_listed m h hc⟩, fun ⟨h0, hread⟩ => ?_⟩
  by_contra hc
  refine h0 (hread ▸ read_unlisted m c.1 fun d hd heq => hc ?_)
  have hd2 : d.2 = c.2 := by rw [← hread, ← heq, read_listed m h hd]
  rwa [← Prod.ext heq hd2]

/-- Settles O14: a write keeps the form by `write_wf`; two lists in rising order with the same members are equal. -/
theorem canonicalMemoryIsUnique : Obligations.CanonicalMemoryIsUnique := by
  refine ⟨write_wf, fun m m' h h' hread => ?_⟩
  have hmem (c : Nat × Word) : c ∈ m ↔ c ∈ m' := by rw [mem_iff_read h, mem_iff_read h', hread]
  have hnodup {l : Memory} (hl : l.wf) : l.Nodup := hl.1.imp fun hlt heq => by simp [heq] at hlt
  have hperm : m.Perm m' := (List.perm_ext_iff_of_nodup (hnodup h) (hnodup h')).mpr hmem
  exact hperm.eq_of_pairwise (fun c d _ _ hcd hdc => absurd hcd hdc.asymm) h.1 h'.1

end Sys2Proof.Machine
end

section
/-! PROOF. Every step keeps the invariant (10_state.md R33): the kinds of change a step makes, one lemma each, then the
instructions and the commands that make them. -/

namespace Sys2Proof.Machine

open Sys2Proof.Laws

variable {s t : State}

/-! Changes that keep the invariant. -/

/-- A Running core has not halted. -/
theorem State.Inv.not_halted (h : s.Inv) (hs : s.state ≠ .halted) (hf : s.state ≠ .faulted) : s.halted = false := by
  by_contra hhalted
  exact (h.haltedFlag (by simpa using hhalted)).elim hs hf

/-- The channel is no part of the invariant, but for a RESUME served only in Running. -/
theorem State.Inv.channel (h : s.Inv) {b : Bool} {d : List Command} {rs : List Response}
    (hb : b = true → s.state = .running) : { s with resuming := b, driver := d, responses := rs }.Inv :=
  { h with resumingRunning := hb }

theorem State.Inv.emit (h : s.Inv) (r : Response) : (s.emit r).Inv := h.channel nofun

theorem State.Inv.grown (h : s.Inv) (hg : Grown s t) : t.Inv := by
  obtain ⟨n, hle, hn, rfl⟩ := hg
  exact { h with
    cellsExist := fun c hc => (h.cellsExist c hc).trans_le hle
    memLenLe := hn.elim id fun hn => hn ▸ h.memLenLe
    awaiting := fun hs => by
      obtain ⟨h0, hop, hlen⟩ := h.awaiting hs
      exact ⟨h0, hop, hlen.trans hle⟩
    terminated := fun hs => by
      obtain ⟨h0, hop, hlen⟩ := h.terminated hs
      exact ⟨h0, hop, hlen.trans_le hle⟩ }

/-- The entry of a fault, whose information is in its range. -/
theorem State.Inv.takeFault (h : s.Inv) {f : FaultCode} {info : Int} (hf : f ≠ .noFault)
    (hinfo : -18446744073709551616 ≤ info ∧ info ≤ 18446744073709551614) : (takeFault f info s).Inv :=
  { h with
    haltedState := nofun
    haltedFlag := fun _ => .inr rfl
    awaiting := nofun
    terminated := nofun
    faultedIff := ⟨fun _ => hf, fun _ => rfl⟩
    faultPcLe := h.pcLe
    faultInfoRange := hinfo
    resumingRunning := nofun }

/-- Precise faults of a step. -/
theorem State.Inv.faultsTo (h : s.Inv) (hf : FaultsTo s t) : t.Inv := by
  obtain ⟨u, f, info, hg, ⟨hcode, hinfo⟩, rfl⟩ := hf
  exact (h.grown hg).takeFault hcode (hinfo h.pcLe)

/-- A core that has not stopped may run on with other cells, pc and rb, within their bounds. -/
theorem State.Inv.running (h : s.Inv) (hs : s.state ≠ .halted) (hf : s.state ≠ .faulted) {m : Memory} {len pc : Nat}
    {rb : Word} {b : Bool} (hm : m.wf) (hcells : ∀ c ∈ m, c.1 < len) (hlen : len ≤ s.params.memLimit)
    (hpc : pc ≤ 9223372036854775808) :
    { s with mem := m, memLen := len, pc := pc, rb := rb, state := .running, resuming := b }.Inv :=
  { h with
    memWf := hm
    cellsExist := hcells
    memLenLe := hlen
    pcLe := hpc
    haltedState := nofun
    haltedFlag := fun hh => by simp [h.not_halted hs hf] at hh
    awaiting := nofun
    terminated := nofun
    faultedIff := ⟨nofun, fun hcode => absurd (h.faultedIff.mpr hcode) hf⟩
    resumingRunning := fun _ => rfl }

/-- Storing a cell that exists, in memory grown to hold it. -/
theorem State.Inv.store_cells (h : s.Inv) {a len : Nat} {v : Word} (hlen : s.memLen ≤ len) :
    ∀ c ∈ s.mem.write a v, c.1 < max len (a + 1) := by
  intro c hc
  obtain rfl | hc := mem_write hc
  · omega
  · have := h.cellsExist c hc
    omega

/-! The instructions. -/

theorem Grown.memLen_bounds {n : Nat} (hg : Grown s { s with memLen := n }) :
    s.memLen ≤ n ∧ (n ≤ s.params.memLimit ∨ n = s.memLen) := by
  obtain ⟨n', hle, hn, heq⟩ := hg
  obtain rfl : n = n' := congrArg State.memLen heq
  exact ⟨hle, hn⟩

/-- The length after the reads of a completed instruction is within bounds, and has not shrunk. -/
theorem State.Inv.grown_len (h : s.Inv) {n : Nat} (hg : Grown s { s with memLen := n }) :
    s.memLen ≤ n ∧ n ≤ s.params.memLimit := by
  obtain ⟨hle, hn⟩ := hg.memLen_bounds
  exact ⟨hle, hn.elim id fun hn => hn ▸ h.memLenLe⟩

section
variable (h : s.Inv) (hr : s.state = .running)
include h hr

theorem State.Inv.running_of_running {m : Memory} {len pc : Nat} {rb : Word} (hm : m.wf) (hcells : ∀ c ∈ m, c.1 < len)
    (hlen : len ≤ s.params.memLimit) (hpc : pc ≤ 9223372036854775808) :
    { s with mem := m, memLen := len, pc := pc, rb := rb }.Inv := by
  have := h.running (by simp [hr]) (by simp [hr]) (rb := rb) (b := s.resuming) hm hcells hlen hpc
  rwa [← hr] at this

theorem State.Inv.aluEffect {op : AluOp} {m1 m2 m3 : Mode} (he : AluEffect op m1 m2 m3 s t) : t.Inv := by
  obtain ⟨a, r, hraws, -, -, htarget, -, hg, rfl⟩ := he
  obtain ⟨hle, hlim⟩ := h.grown_len hg
  obtain ⟨-, ha⟩ := target_some htarget
  have := h.paramsWf.2
  exact h.running_of_running hr (write_wf _ _ _ h.memWf) (h.store_cells hle) (by omega) (by omega)

theorem State.Inv.jumpEffect {sense : Bool} {m1 m2 : Mode} (he : JumpEffect sense m1 m2 s t) : t.Inv := by
  obtain ⟨pc, hraws, -, -, hpc, hg, rfl⟩ := he
  obtain ⟨hle, hlim⟩ := h.grown_len hg
  have hlimit := h.paramsWf.2
  have hword := in64_toInt (s.operand m2 2)
  have hpcLe : pc ≤ 9223372036854775808 := by
    obtain ⟨-, rfl⟩ | ⟨-, -, rfl⟩ := hpc <;> omega
  exact h.running_of_running hr h.memWf (fun c hc => (h.cellsExist c hc).trans_le hle) hlim hpcLe

/-- A suspended INPUT is at pc, with its operand cell. -/
theorem State.Inv.suspendInput {a : Nat} (ha : a < s.params.memLimit)
    (hword : 0 ≤ s.word.toInt ∧ s.word.toInt % 100 = 3) (hlen : s.pc + 2 ≤ s.memLen) : (suspendInput a s).Inv :=
  { h with
    pendingLt := ha
    haltedState := nofun
    haltedFlag := fun hh => by simp [h.not_halted (by simp [hr]) (by simp [hr])] at hh
    awaiting := fun _ => ⟨hword.1, hword.2, hlen⟩
    terminated := nofun
    faultedIff := ⟨nofun, fun hcode => by simp [h.faultedIff.mpr hcode] at hr⟩
    resumingRunning := nofun }

/-- A halted core's pc is at its TERMINATE. -/
theorem State.Inv.halt (hword : 0 ≤ s.word.toInt ∧ s.word.toInt % 100 = 99) (hpc : s.pc < s.memLen) (r : Response) :
    (s.halt.emit r).Inv :=
  { h with
    haltedState := fun _ => rfl
    haltedFlag := fun _ => .inl rfl
    awaiting := nofun
    terminated := fun _ => ⟨hword.1, hword.2, hpc⟩
    faultedIff := ⟨nofun, fun hcode => by simp [h.faultedIff.mpr hcode] at hr⟩
    resumingRunning := nofun }

/-- An instruction that completes keeps the invariant, where pc is at its word. -/
theorem State.Inv.completed {i : Instr} (hword : 0 ≤ s.word.toInt ∧ s.word.toInt % 100 = i.opcode)
    (hpc : s.pc < s.memLen) (hc : Completed i s t) : t.Inv := by
  cases i with
  | add | multiply | lessThan | equals => exact h.aluEffect hr hc
  | jumpIfTrue | jumpIfFalse => exact h.jumpEffect hr hc
  | input =>
    obtain ⟨a, -, htarget, hg, rfl⟩ := hc
    exact (h.grown hg).suspendInput hr (target_some htarget).2 hword (le_max_right ..)
  | output =>
    obtain ⟨hraws, -, hg, rfl⟩ := hc
    obtain ⟨hle, hlim⟩ := h.grown_len hg
    have := h.paramsWf.2
    exact (h.running_of_running hr h.memWf (fun c hc => (h.cellsExist c hc).trans_le hle) hlim (by omega)).emit _
  | setRelativeBase =>
    obtain ⟨r, hraws, -, -, hg, rfl⟩ := hc
    obtain ⟨hle, hlim⟩ := h.grown_len hg
    have := h.paramsWf.2
    exact h.running_of_running hr h.memWf (fun c hc => (h.cellsExist c hc).trans_le hle) hlim (by omega)
  | terminate =>
    obtain rfl := hc
    exact h.halt hr hword hpc _

end

/-- A word that decodes is not negative, and its low two digits are the instruction's opcode. -/
theorem word_of_decode {strict : Bool} {w : Word} {i : Instr} (h : decode strict w = .ok i) :
    0 ≤ w.toInt ∧ w.toInt % 100 = i.opcode := by
  obtain ⟨h0, hnat⟩ := decode_ok h
  have := decodeNat_opcode hnat
  have := (toInt_of_nonneg h0).1
  exact ⟨h0, by omega⟩

/-! The commands. -/

/-- The core after a LOAD that is accepted, whatever it was before. -/
theorem State.Inv.loaded (h : s.params.wf) {image : List Word} (hfit : image.length ≤ s.params.memLimit) :
    (s.loaded image).Inv where
  paramsWf := h
  memWf := ofImageAt_wf image 0
  cellsExist c hc := by simpa using (mem_ofImageAt hc).2.1
  memLenLe := hfit
  pcLe := Nat.zero_le _
  pendingLt := h.1
  haltedState := nofun
  haltedFlag := nofun
  awaiting := nofun
  terminated := nofun
  faultedIff := ⟨nofun, fun hcode => absurd rfl hcode⟩
  faultPcLe := Nat.zero_le _
  faultInfoRange := by simp
  resumingRunning := nofun

section
variable (h : s.Inv)
include h

theorem State.Inv.respond (r : Response) : (s.respond r).Inv := h.channel h.resumingRunning

theorem State.Inv.loadImage (image : List Word) : (loadImage image s).Inv := by
  unfold Machine.loadImage
  split
  · exact h.respond _
  · next hfit => exact (State.Inv.loaded h.paramsWf (not_lt.mp hfit)).respond _

theorem State.Inv.loadText (text : List Char) : (loadText text s).Inv := by
  unfold Machine.loadText
  split
  · exact h.loadImage _
  · exact h.respond _

theorem State.Inv.resumeCall (v : Option Word) : (resumeCall v s).Inv := by
  cases hs : s.state with
  | faulted => rw [resumeCall_faulted hs]; exact h.emit _
  | halted => rw [resumeCall_halted hs]; exact h.takeFault (by simp) (by simp)
  | running =>
    cases v with
    | none =>
      have hstart : Machine.resumeCall none s = s.startRun := by simp only [Machine.resumeCall, hs]
      rw [hstart]
      exact h.channel fun _ => hs
    | some v =>
      have := in64_toInt v
      rw [resumeCall_running_some hs]
      exact h.takeFault (by simp) (by omega)
  | awaitingInput =>
    cases v with
    | none => rw [resumeCall_awaiting_none hs]; exact h.emit _
    | some v =>
      obtain ⟨-, -, hpc⟩ := h.awaiting hs
      have := h.paramsWf.2
      have := h.memLenLe
      have := h.pendingLt
      rw [resumeCall_awaiting_some hs h.pendingLt]
      exact h.running (by simp [hs]) (by simp [hs]) (write_wf _ _ _ h.memWf) (h.store_cells le_rfl) (by omega) (by omega)

theorem State.Inv.acceptCommand (c : Command) : (acceptCommand c s).Inv := by
  cases c with
  | load image => exact h.loadImage image
  | loadText text => exact h.loadText text
  | resume => exact h.resumeCall none
  | resumeWith v => exact h.resumeCall (some v)

theorem State.Inv.driverTurn : (driverTurn s).Inv := by
  cases hd : s.driver with
  | nil => rwa [driverTurn_nil hd]
  | cons c rest =>
    rw [driverTurn_cons hd]
    exact (h.channel h.resumingRunning).acceptCommand c

end

/-- Settles O57: a step while a RESUME is served faults precisely or completes an instruction, by `step_effect`; any other
step is the driver's turn. -/
theorem stepKeepsInvariant : Obligations.StepKeepsInvariant := by
  intro s s' h hstep
  by_cases hserve : s.resuming = true
  · have hr := h.resumingRunning hserve
    obtain ⟨u, hu, heffect⟩ := step_effect hserve hr
    obtain rfl := Host.Outcome.next.inj (hu.symm.trans hstep)
    obtain hf | ⟨i, hdecode, hpc, hc⟩ := heffect
    · exact h.faultsTo hf
    · refine (h.grown (.grow hpc)).completed (by simpa using hr) ?_ ?_ hc
      · simpa [State.word] using word_of_decode hdecode
      · simp
  · rw [step_driver (.inl (by simpa using hserve))] at hstep
    obtain rfl := Host.Outcome.next.inj hstep
    exact h.driverTurn

end Sys2Proof.Machine
end

section
/-! PROOF. The invariant holds at reset and in every state reached from it, and what the spec lists of those states
(10_state.md R33). -/

namespace Sys2Proof.Machine

variable {s t : State}

/-- Settles O56: reset is the LOAD of no cells, under the parameters and the driver given. -/
theorem resetMeetsInvariant : Obligations.ResetMeetsInvariant := fun p script hp =>
  State.Inv.loaded (s := { State.reset with params := p, driver := script }) (image := []) hp (Nat.zero_le _)

/-- An invariant state reaches only invariant states. -/
theorem State.Inv.reaches (h : s.Inv) (hr : Reaches s t) : t.Inv := by
  induction hr with
  | refl => exact h
  | tail t u hst hstep ih => exact stepKeepsInvariant t u ih hstep

/-- LOAD leaves the core in Running, or changes no cell. -/
theorem loadImage_running_or_cells (image : List Word) (s : State) :
    (loadImage image s).state = .running ∨ ∀ c, (loadImage image s).cell c = s.cell c := by
  unfold loadImage
  split
  · exact .inr fun _ => rfl
  · exact .inl rfl

theorem loadText_running_or_cells (text : List Char) (s : State) :
    (loadText text s).state = .running ∨ ∀ c, (loadText text s).cell c = s.cell c := by
  unfold loadText
  split
  · exact loadImage_running_or_cells _ s
  · exact .inr fun _ => rfl

/-- Of the commands to a suspended core, those that change a cell end the suspension. -/
theorem acceptCommand_running_or_cells (hs : s.state = .awaitingInput) (ht : s.pendingTarget < s.params.memLimit)
    (c : Command) : (acceptCommand c s).state = .running ∨ ∀ a, (acceptCommand c s).cell a = s.cell a := by
  cases c with
  | load image => exact loadImage_running_or_cells image s
  | loadText text => exact loadText_running_or_cells text s
  | resume => rw [acceptCommand, resumeCall_awaiting_none hs]; exact .inr fun _ => rfl
  | resumeWith v => rw [acceptCommand, resumeCall_awaiting_some hs ht]; exact .inl rfl

/-- No cell changes while the core stays suspended. -/
theorem cell_of_awaiting_step (hs : s.state = .awaitingInput) (ht : s.pendingTarget < s.params.memLimit)
    (hstep : step s = .next t) (hstays : t.state = .awaitingInput) (c : Nat) : t.cell c = s.cell c := by
  rw [step_driver (.inr (by simp [hs]))] at hstep
  obtain rfl := Host.Outcome.next.inj hstep
  cases hd : s.driver with
  | nil => rw [driverTurn_nil hd]
  | cons command rest =>
    rw [driverTurn_cons hd] at hstays ⊢
    obtain hrunning | hcells := acceptCommand_running_or_cells (s := { s with driver := rest }) hs ht command
    · simp [hrunning] at hstays
    · exact hcells c

theorem faultCode_code_ne_zero {f : FaultCode} : f.code ≠ 0 ↔ f ≠ .noFault := by cases f <;> decide

/-- Settles O58: each clause is one of the invariant's, and a suspended core keeps its cells. -/
theorem reachableStatesKeepSpecInvariants : Obligations.ReachableStatesKeepSpecInvariants := by
  intro p script s hp hreach
  have h := (resetMeetsInvariant p script hp).reaches hreach
  refine ⟨Nat.zero_le _, ⟨Nat.zero_le _, h.memLenLe⟩, h.haltedState, h.haltedFlag, fun hs => ?_,
    h.faultedIff.trans faultCode_code_ne_zero.symm⟩
  obtain ⟨h0, hopcode, -⟩ := h.awaiting hs
  exact ⟨h0, hopcode, h.pendingLt, fun s' hstep hstays => cell_of_awaiting_step hs h.pendingLt hstep hstays⟩

end Sys2Proof.Machine
end

section
/-! PROOF. The hardware registers hold every value that occurs (10_state.md R25, R32; 60_exceptions.md R170). -/

namespace Sys2Proof.Machine

theorem toNat_ofNat_register {n : Nat} (h : n ≤ 9223372036854775808) : (BitVec.ofNat 64 n).toNat = n := by
  rw [BitVec.toNat_ofNat]
  omega

theorem toInt_ofInt_register {v : Int} (h : -18446744073709551616 ≤ v ∧ v ≤ 18446744073709551614) :
    (BitVec.ofInt 65 v).toInt = v := by
  rw [BitVec.toInt_ofInt]
  exact Int.bmod_eq_of_le (by omega) (by omega)

theorem execState_code_inj (a b : ExecState) (h : a.code = b.code) : a = b := by
  cases a <;> cases b <;> simp_all [ExecState.code]

/-- The fault a cause code names. -/
def faultOfCode (n : Nat) : FaultCode :=
  [.noFault, .addressError, .unknownOpcodeError, .invalidWriteModeError, .alreadyHaltedError, .unknownModeError,
    .overflowError, .capacityError, .inputProtocolError].getD n .noFault

theorem faultOfCode_code (f : FaultCode) : faultOfCode f.code.toNat = f := by cases f <;> rfl

theorem faultCode_code_inj (a b : FaultCode) (h : a.code = b.code) : a = b := by
  rw [← faultOfCode_code a, h, faultOfCode_code]

/-- Settles O59: the invariant's bounds are the registers' ranges, and the encodings are the spec's tables. -/
theorem registerBitsLoseNothing : Obligations.RegisterBitsLoseNothing := by
  refine ⟨fun s h => ?_, rfl, rfl, rfl, rfl, rfl, rfl, rfl, rfl, rfl, rfl, rfl, rfl, rfl, execState_code_inj,
    faultCode_code_inj, fun a => by cases a <;> decide⟩
  have hlimit := h.paramsWf.2
  have htarget := h.pendingLt
  have hlen := h.memLenLe
  refine ⟨toNat_ofNat_register h.pcLe, rfl, rfl, rfl, toNat_ofNat_register (by omega), toNat_ofNat_register h.faultPcLe,
    toInt_ofInt_register h.faultInfoRange, toNat_ofNat_register (by omega), ?_⟩
  show BitVec.ofBool s.halted = _
  cases s.halted <;> rfl

end Sys2Proof.Machine
end

section
/-! PROOF. What each instruction does where its operands exist (41_arithmetic.md to 46_terminate.md). -/

namespace Sys2Proof.Machine

open Sys2Proof.Laws

variable {s : State}

/-! The ALU instructions. -/

/-- An ALU instruction whose exact result is in INT64 stores the cell of that integer. -/
theorem aluInstr_stores_exact {op : AluOp} {m1 m2 m3 : Mode} {t : Nat} (w : Word) (hraws : s.rawsExist 3)
    (h1 : s.reachable m1 1) (h2 : s.reachable m2 2) (h3 : s.target m3 3 = some t)
    (hfits : in64 (aluExact op (s.operand m1 1) (s.operand m2 2))) :
    ∃ r : Word, r.toInt = aluExact op (s.operand m1 1) (s.operand m2 2) ∧
      (aluInstr op m1 m2 m3 w s).outcome =
        .next { s with mem := s.mem.write t r, memLen := max (s.lenReads 3 m1 m2) (t + 1), pc := s.pc + 4 } :=
  ⟨_, toInt_ofInt hfits, by rw [aluInstr_ok hraws h1 h2 h3 (alu_some hfits), outcome_ok]⟩

/-- Settles O18: ADD is the ALU instruction whose exact result is the sum. -/
theorem addStoresSum : Obligations.AddStoresSum :=
  fun _ _ _ _ _ _ hraws h1 h2 h3 hfits => aluInstr_stores_exact (op := .add) _ hraws h1 h2 h3 hfits

/-- Settles O19: MULTIPLY is the ALU instruction whose exact result is the product. -/
theorem multiplyStoresProduct : Obligations.MultiplyStoresProduct :=
  fun _ _ _ _ _ _ hraws h1 h2 h3 hfits => aluInstr_stores_exact (op := .mul) _ hraws h1 h2 h3 hfits

/-- The cell of a comparison's result. -/
theorem boolWord_decide (p : Prop) [Decidable p] : boolWord (decide p) = if p then 1 else 0 := by
  by_cases hp : p <;> simp [boolWord, hp]

/-- Settles O20: LT never overflows, and its result is the signed comparison's. -/
theorem lessThanStoresComparison : Obligations.LessThanStoresComparison := by
  intro m1 m2 m3 x t s hraws h1 h2 h3
  rw [← boolWord_decide]
  exact congrArg Res.outcome (aluInstr_ok hraws h1 h2 h3 (alu_lt _ _))

/-- Settles O21: EQ never overflows, and two cells are equal where their integers are. -/
theorem equalsStoresComparison : Obligations.EqualsStoresComparison := by
  intro m1 m2 m3 x t s hraws h1 h2 h3
  have halu := alu_eq (s.operand m1 1) (s.operand m2 2)
  simp only [BitVec.toInt_inj] at halu
  rw [← boolWord_decide]
  exact congrArg Res.outcome (aluInstr_ok hraws h1 h2 h3 halu)

/-! INPUT and OUTPUT. -/

/-- Settles O22: the target is latched in the state after the raw operand's fetch. -/
theorem inputSuspends : Obligations.InputSuspends := by
  intro m1 x t s hraws htarget
  simp only [exec, execInput, operandF1W_ok hraws htarget, bind_ok, outcome_ok]
  rfl

/-- Settles O23: the event is emitted from the state after the reads. -/
theorem outputEmitsOperand : Obligations.OutputEmitsOperand := by
  intro m1 x s hraws h1
  simp only [exec, execOutput, operandF1R_ok hraws h1, bind_ok, outcome_ok]
  rfl

/-! The jumps. -/

/-- A taken jump whose target is not negative sets pc to it. -/
theorem jumpInstr_nonneg {sense : Bool} {m1 m2 : Mode} (hraws : s.rawsExist 2) (h1 : s.reachable m1 1)
    (h2 : s.reachable m2 2) (htaken : truth (s.operand m1 1) = sense) (h0 : 0 ≤ (s.operand m2 2).toInt) :
    jumpInstr sense m1 m2 s =
      .ok () { s with memLen := s.lenReads 2 m1 m2, pc := (s.operand m2 2).toInt.toNat } := by
  rw [jumpInstr_taken hraws h1 h2 htaken, jumpTo_ok h0]

/-- Settles O24: `jumpInstr` that jumps where operand 1 is true. -/
theorem jumpIfTrueSetsPc : Obligations.JumpIfTrueSetsPc := by
  refine fun m1 m2 x s hraws h1 h2 => ⟨fun hzero => ?_, fun hnonzero h0 => ?_⟩
  · exact congrArg Res.outcome (jumpInstr_untaken hraws h1 h2 (by simp [truth_eq_false.mpr hzero]))
  · exact congrArg Res.outcome (jumpInstr_nonneg hraws h1 h2 (truth_eq_true.mpr hnonzero) h0)

/-- Settles O25: `jumpInstr` that jumps where operand 1 is false. -/
theorem jumpIfFalseSetsPc : Obligations.JumpIfFalseSetsPc := by
  refine fun m1 m2 x s hraws h1 h2 => ⟨fun hnonzero => ?_, fun hzero h0 => ?_⟩
  · exact congrArg Res.outcome (jumpInstr_untaken hraws h1 h2 (by simp [truth_eq_true.mpr hnonzero]))
  · exact congrArg Res.outcome (jumpInstr_nonneg hraws h1 h2 (truth_eq_false.mpr hzero) h0)

/-! SET_RELATIVE_BASE and TERMINATE. -/

/-- SET_RELATIVE_BASE where its operand exists is the ALU's sum with the old rb, and the end that the sum decides. -/
theorem execSetRelativeBase_operand {m1 : Mode} {x : Nat} (hraws : s.rawsExist 1) (h1 : s.reachable m1 1) :
    exec (.setRelativeBase m1 x) s =
      ((aluStage .add s.rb (s.operand m1 1) (encode (.setRelativeBase m1 x)) { s with memLen := s.lenF1R m1 }).bind
        fun r t => .ok () ((t.setRb r).advance 2)).outcome := by
  simp only [exec, execSetRelativeBase, operandF1R_ok hraws h1, bind_ok]

/-- Settles O26: the sum fits, so rb is the cell of it. -/
theorem setRelativeBaseAdds : Obligations.SetRelativeBaseAdds := by
  intro m1 x s hraws h1 hfits
  refine ⟨_, toInt_ofInt hfits, ?_⟩
  rw [execSetRelativeBase_operand hraws h1, aluStage_ok (alu_some (op := .add) hfits), bind_ok, outcome_ok]
  rfl

/-- Settles O27: TERMINATE has one arm and no operands. -/
theorem terminateHalts : Obligations.TerminateHalts := fun _ _ => rfl

/-- The read of one operand grows memory past the word, so the growth for the fetch is part of it. -/
theorem lenF1R_grow_pc (m1 : Mode) : (s.grow s.pc).lenF1R m1 = s.lenF1R m1 := by
  simp only [State.lenF1R, State.lenRaws, reach_grow, grow_memLen, grow_pc]
  omega

/-- Settles O29: the sum does not fit, so the ALU stage faults with the word of the decoded instruction. -/
theorem relativeBaseOverflowFaults : Obligations.RelativeBaseOverflowFaults := by
  intro m1 x s hs hraws h1 hdecode hover
  have hnone : alu .add (s.grow s.pc).rb ((s.grow s.pc).operand m1 1) = none := alu_none (by simpa [aluExact] using hover)
  rw [step_decode_ok hs hdecode, execSetRelativeBase_operand (by simpa using hraws) (reachable_grow.mpr h1),
    aluStage_overflow hnone, bind_raise, outcome_raise, encode_of_decode hdecode, lenF1R_grow_pc, grow_eq]

end Sys2Proof.Machine
end

section
/-! PROOF. The order of faults in an instruction: raw operands before addresses, addresses in operand order
(60_exceptions.md R183; 40_execution_cycle.md R85). -/

namespace Sys2Proof.Machine

variable {s : State}

/-! A fetch in a state that earlier fetches have grown. -/

theorem fetchRaw_grown_ok {n k : Nat} (h : s.pc + k < s.params.memLimit) :
    fetchRaw k { s with memLen := n } = .ok (s.raw k) { s with memLen := max n (s.pc + k + 1) } :=
  fetchRaw_ok (s := { s with memLen := n }) h

theorem fetchRaw_grown_capacity {n k : Nat} (h : s.params.memLimit ≤ s.pc + k) :
    fetchRaw k { s with memLen := n } = raise .capacityError ((s.pc + k : Nat) : Int) { s with memLen := n } :=
  fetchRaw_capacity (s := { s with memLen := n }) h

/-! The raw operands of each format, and whatever the instruction does after them: all fetched, or the one that lies at
MEM_LIMIT is the fault. -/

section
variable {α : Type} (k1 : Word → State → Res α) (k2 : Word → Word → State → Res α)
  (k3 : Word → Word → Word → State → Res α)

theorem fetchRaws_one (h : s.rawsExist 1) :
    (fetchRaw 1 s).bind k1 = k1 (s.raw 1) { s with memLen := s.lenRaws 1 } := by
  rw [fetchRaw_ok h, bind_ok]
  rfl

theorem fetchRaws_two (h : s.rawsExist 2) :
    ((fetchRaw 1 s).bind fun r1 s => (fetchRaw 2 s).bind (k2 r1)) =
      k2 (s.raw 1) (s.raw 2) { s with memLen := s.lenRaws 2 } := by
  have hlen : max (max s.memLen (s.pc + 1 + 1)) (s.pc + 2 + 1) = s.lenRaws 2 := by simp only [State.lenRaws]; omega
  rw [fetchRaw_ok (by omega), bind_ok, fetchRaw_grown_ok h, bind_ok, hlen]

theorem fetchRaws_three (h : s.rawsExist 3) :
    ((fetchRaw 1 s).bind fun r1 s => (fetchRaw 2 s).bind fun r2 s => (fetchRaw 3 s).bind (k3 r1 r2)) =
      k3 (s.raw 1) (s.raw 2) (s.raw 3) { s with memLen := s.lenRaws 3 } := by
  have hlen : max (s.lenRaws 2) (s.pc + 3 + 1) = s.lenRaws 3 := by simp only [State.lenRaws]; omega
  rw [fetchRaws_two (fun r1 r2 s => (fetchRaw 3 s).bind (k3 r1 r2)) (by omega), fetchRaw_grown_ok h, bind_ok, hlen]

theorem fetchRaws_first_at_limit (h : s.pc + 1 = s.params.memLimit) :
    (fetchRaw 1 s).bind k1 = raise .capacityError ((s.pc + 1 : Nat) : Int) s := by
  rw [fetchRaw_capacity h.ge, bind_raise]

theorem fetchRaws_second_at_limit (h : s.pc + 2 = s.params.memLimit) :
    ((fetchRaw 1 s).bind fun r1 s => (fetchRaw 2 s).bind (k2 r1)) =
      raise .capacityError ((s.pc + 2 : Nat) : Int) { s with memLen := max s.memLen (s.pc + 2) } := by
  rw [fetchRaws_one (fun r1 s => (fetchRaw 2 s).bind (k2 r1)) (by omega), fetchRaw_grown_capacity h.ge, bind_raise]
  rfl

theorem fetchRaws_third_at_limit (h : s.pc + 3 = s.params.memLimit) :
    ((fetchRaw 1 s).bind fun r1 s => (fetchRaw 2 s).bind fun r2 s => (fetchRaw 3 s).bind (k3 r1 r2)) =
      raise .capacityError ((s.pc + 3 : Nat) : Int) { s with memLen := max s.memLen (s.pc + 3) } := by
  rw [fetchRaws_two (fun r1 r2 s => (fetchRaw 3 s).bind (k3 r1 r2)) (by omega), fetchRaw_grown_capacity h.ge, bind_raise]
  rfl

end

/-- An instruction whose operand stage faults ends in that fault. -/
theorem outcome_bind_of_raise {α β : Type} {r : Res α} {f : FaultCode} {info : Int} {t : State} (h : r = raise f info t)
    (next : α → State → Res β) : (r.bind next).outcome = .next (takeFault f info t) := by
  rw [h, bind_raise, outcome_raise]

/-- `mem_len` after the raw operands before operand k, where operand k is at MEM_LIMIT. -/
def State.lenBeforeRaw (s : State) (k : Nat) : Nat := if k = 1 then s.memLen else max s.memLen (s.pc + k)

section
variable {k : Nat} (h1 : 1 ≤ k) (hlimit : s.pc + k = s.params.memLimit)
include h1 hlimit

theorem operandsF3W_raw_at_limit (m1 m2 m3 : Mode) (w : Word) (hk : k ≤ 3) :
    operandsF3W m1 m2 m3 w s =
      raise .capacityError ((s.pc + k : Nat) : Int) { s with memLen := s.lenBeforeRaw k } := by
  obtain rfl | rfl | rfl : k = 1 ∨ k = 2 ∨ k = 3 := by omega
  · exact fetchRaws_first_at_limit _ hlimit
  · exact fetchRaws_second_at_limit _ hlimit
  · exact fetchRaws_third_at_limit _ hlimit

theorem operandsF2R_raw_at_limit (m1 m2 : Mode) (hk : k ≤ 2) :
    operandsF2R m1 m2 s = raise .capacityError ((s.pc + k : Nat) : Int) { s with memLen := s.lenBeforeRaw k } := by
  obtain rfl | rfl : k = 1 ∨ k = 2 := by omega
  · exact fetchRaws_first_at_limit _ hlimit
  · exact fetchRaws_second_at_limit _ hlimit

theorem operandF1R_raw_at_limit (m1 : Mode) (hk : k ≤ 1) :
    operandF1R m1 s = raise .capacityError ((s.pc + k : Nat) : Int) { s with memLen := s.lenBeforeRaw k } := by
  obtain rfl : k = 1 := by omega
  exact fetchRaws_first_at_limit _ hlimit

theorem operandF1W_raw_at_limit (m1 : Mode) (w : Word) (hk : k ≤ 1) :
    operandF1W m1 w s = raise .capacityError ((s.pc + k : Nat) : Int) { s with memLen := s.lenBeforeRaw k } := by
  obtain rfl : k = 1 := by omega
  exact fetchRaws_first_at_limit _ hlimit

end

/-- Settles O31: every instruction with an operand begins with the operand stage of its format. -/
theorem rawOperandFetchFaultsFirst : Obligations.RawOperandFetchFaultsFirst := by
  intro i s k h1 hk hlimit
  cases i with
  | add m1 m2 m3 | multiply m1 m2 m3 | lessThan m1 m2 m3 | equals m1 m2 m3 =>
    exact outcome_bind_of_raise (operandsF3W_raw_at_limit h1 hlimit m1 m2 m3 _ hk) _
  | jumpIfTrue m1 m2 | jumpIfFalse m1 m2 => exact outcome_bind_of_raise (operandsF2R_raw_at_limit h1 hlimit m1 m2 hk) _
  | output m1 | setRelativeBase m1 => exact outcome_bind_of_raise (operandF1R_raw_at_limit h1 hlimit m1 hk) _
  | input m1 => exact outcome_bind_of_raise (operandF1W_raw_at_limit h1 hlimit m1 _ hk) _
  | terminate => exact absurd (h1.trans hk) (by simp [Instr.operandCount])

/-! Operands in a state that earlier reads have grown, and the formats with their raw operands fetched. -/

theorem resolveRead_grown_ok {n k : Nat} {m : Mode} (h : s.reachable m k) :
    resolveRead m (s.raw k) { s with memLen := n } =
      .ok (s.operand m k) { s with memLen := max n (s.reach m k) } :=
  resolveRead_ok (s := { s with memLen := n }) h

section
variable {k n : Nat} {m m1 m2 m3 : Mode} {w : Word} {a : Int} {f : FaultCode}
  (hf : addressFault s.params.memLimit a = some f)
include hf

theorem resolveRead_grown_fault (h : operandAddr m s.rb (s.raw k) = some a) :
    resolveRead m (s.raw k) { s with memLen := n } = raise f a { s with memLen := n } :=
  resolveRead_fault (s := { s with memLen := n }) h hf

theorem resolveWrite_grown_fault (h : operandAddr m s.rb (s.raw k) = some a) :
    resolveWrite m (s.raw k) w { s with memLen := n } = raise f a { s with memLen := n } :=
  (resolve_raises (s := { s with memLen := n }) h hf).2

theorem operandsF3W_first_fault (hraws : s.rawsExist 3) (ha : operandAddr m1 s.rb (s.raw 1) = some a) :
    operandsF3W m1 m2 m3 w s = raise f a { s with memLen := s.lenRaws 3 } := by
  refine (fetchRaws_three _ hraws).trans ?_
  rw [resolveRead_grown_fault hf ha, bind_raise]

theorem operandsF3W_second_fault (hraws : s.rawsExist 3) (h1 : s.reachable m1 1)
    (ha : operandAddr m2 s.rb (s.raw 2) = some a) :
    operandsF3W m1 m2 m3 w s = raise f a { s with memLen := max (s.lenRaws 3) (s.reach m1 1) } := by
  refine (fetchRaws_three _ hraws).trans ?_
  rw [resolveRead_grown_ok h1, bind_ok, resolveRead_grown_fault hf ha, bind_raise]

theorem operandsF3W_target_fault (hraws : s.rawsExist 3) (h1 : s.reachable m1 1) (h2 : s.reachable m2 2)
    (ha : operandAddr m3 s.rb (s.raw 3) = some a) :
    operandsF3W m1 m2 m3 w s = raise f a { s with memLen := s.lenReads 3 m1 m2 } := by
  refine (fetchRaws_three _ hraws).trans ?_
  rw [resolveRead_grown_ok h1, bind_ok, resolveRead_grown_ok h2, bind_ok, resolveWrite_grown_fault hf ha, bind_raise]
  rfl

theorem operandsF2R_first_fault (hraws : s.rawsExist 2) (ha : operandAddr m1 s.rb (s.raw 1) = some a) :
    operandsF2R m1 m2 s = raise f a { s with memLen := s.lenRaws 2 } := by
  refine (fetchRaws_two _ hraws).trans ?_
  rw [resolveRead_grown_fault hf ha, bind_raise]

theorem operandsF2R_second_fault (hraws : s.rawsExist 2) (h1 : s.reachable m1 1)
    (ha : operandAddr m2 s.rb (s.raw 2) = some a) :
    operandsF2R m1 m2 s = raise f a { s with memLen := max (s.lenRaws 2) (s.reach m1 1) } := by
  refine (fetchRaws_two _ hraws).trans ?_
  rw [resolveRead_grown_ok h1, bind_ok, resolveRead_grown_fault hf ha, bind_raise]

theorem operandF1R_fault (hraws : s.rawsExist 1) (ha : operandAddr m1 s.rb (s.raw 1) = some a) :
    operandF1R m1 s = raise f a { s with memLen := s.lenRaws 1 } :=
  (fetchRaws_one _ hraws).trans (resolveRead_grown_fault hf ha)

theorem operandF1W_fault (hraws : s.rawsExist 1) (ha : operandAddr m1 s.rb (s.raw 1) = some a) :
    operandF1W m1 w s = raise f a { s with memLen := s.lenRaws 1 } :=
  (fetchRaws_one _ hraws).trans (resolveWrite_grown_fault hf ha)

end

/-- Settles O32: the operand stage of each format resolves in order, so the first bad address is its fault; the clauses
that a format has no operand for are about none of its instructions. -/
theorem operandFaultsInOrder : Obligations.OperandFaultsInOrder := by
  intro i s a f hraws m1 m2 m3 hmodes
  cases i with
  | add | multiply | lessThan | equals =>
    cases hmodes
    exact ⟨fun _ _ ha hf => outcome_bind_of_raise (operandsF3W_first_fault hf hraws ha) _,
      fun _ h1 ha hf => outcome_bind_of_raise (operandsF3W_second_fault hf hraws h1 ha) _,
      fun _ h1 h2 ha hf => outcome_bind_of_raise (operandsF3W_target_fault hf hraws h1 h2 ha) _, nofun⟩
  | jumpIfTrue | jumpIfFalse =>
    cases hmodes
    exact ⟨fun _ _ ha hf => outcome_bind_of_raise (operandsF2R_first_fault hf hraws ha) _,
      fun _ h1 ha hf => outcome_bind_of_raise (operandsF2R_second_fault hf hraws h1 ha) _, nofun, nofun⟩
  | output | setRelativeBase =>
    cases hmodes
    exact ⟨fun _ _ ha hf => outcome_bind_of_raise (operandF1R_fault hf hraws ha) _, nofun, nofun, nofun⟩
  | input =>
    cases hmodes
    exact ⟨fun hreads => absurd rfl hreads, nofun, nofun,
      fun _ ha hf => outcome_bind_of_raise (operandF1W_fault hf hraws ha) _⟩
  | terminate => exact ⟨nofun, nofun, nofun, nofun⟩

end Sys2Proof.Machine
end

section
/-! PROOF. Small facts of a step, of a snapshot and of the channel (20_memory.md R47; 40_execution_cycle.md R85, R102). -/

namespace Sys2Proof.Machine

/-- Settles O15: the sequence is the cells' values over the addresses below `mem_len`. -/
theorem snapshotListsEveryCell : Obligations.SnapshotListsEveryCell := by
  refine fun s => ⟨by simp [Snapshot.toList, State.snapshot], fun a ha => ?_⟩
  simp [Snapshot.toList, State.snapshot, State.cell, ha]

/-- Settles O16: the fetch decodes the word, and the step is what follows the fetch. -/
theorem stepRunsDecodedInstruction : Obligations.StepRunsDecodedInstruction := fun _ _ => step_decode_ok

/-- Settles O17: the fetch is a memory read of pc, which the address check refuses. -/
theorem fetchBeyondLimitFaults : Obligations.FetchBeyondLimitFaults := fun _ => step_fetch_beyond_limit

/-- Settles O45: a step is an instruction, a fault of the fetch, or the driver's turn, and each has a next state. -/
theorem stepNeverStops : Obligations.StepNeverStops := by
  intro s
  by_cases h : s.resuming = true ∧ s.state = .running
  · obtain ⟨s', hstep, -⟩ := step_effect h.1 h.2
    exact ⟨s', hstep⟩
  · exact ⟨_, step_driver (by rw [← Bool.not_eq_true]; tauto)⟩

/-- Settles O50: the resume without a value in Running, and the driver's turn with no command. -/
theorem resumeOfRunningStarts : Obligations.ResumeOfRunningStarts := by
  refine fun s hidle => ⟨fun rest hrunning hdriver => ?_, fun hnone => ?_⟩
  · rw [step_command hidle hdriver]
    simp only [acceptCommand, resumeCall, hrunning, State.startRun]
  · rw [step_driver (.inl hidle), driverTurn_nil hnone]

/-- Settles O51: `submit` asks for an idle channel with no command waiting. -/
theorem busyChannelRefuses : Obligations.BusyChannelRefuses :=
  fun s c => ⟨fun hbusy => by simp [submit, hbusy], fun hidle hnone => by simp [submit, hidle, hnone]⟩

end Sys2Proof.Machine
end

section
/-! PROOF. Frames: what an instruction leaves alone, read off its effect (40_execution_cycle.md R87;
60_exceptions.md R180, R181). -/

namespace Sys2Proof.Machine

variable {s s' : State}

/-- A fault taken in a step is precise: the reads before it have changed `mem_len` only. -/
theorem FaultsTo.precise (h : FaultsTo s s') : PreciseFault s s' := by
  obtain ⟨t, f, info, ⟨n, hle, -, rfl⟩, ⟨hcode, -⟩, rfl⟩ := h
  exact ⟨f, info, n, hcode, hle, rfl⟩

theorem FaultsTo.cells (h : FaultsTo s s') (c : Nat) : s'.cell c = s.cell c := by
  obtain ⟨t, f, info, ⟨n, -, -, rfl⟩, -, rfl⟩ := h
  rfl

/-- An instruction that answers a state faulted precisely there or completed there. -/
theorem exec_cases {i : Instr} (h : exec i s = .next s') : FaultsTo s s' ∨ Completed i s s' := by
  obtain ⟨t, ht, heffect⟩ := exec_effect i s
  obtain rfl := Host.Outcome.next.inj (ht.symm.trans h)
  exact heffect

/-- The four storing instructions are the ALU's. -/
theorem completed_storing {m1 m2 m3 : Mode} {x : Nat} {i : Instr}
    (hi : i ∈ [Instr.add m1 m2 m3 x, .multiply m1 m2 m3 x, .lessThan m1 m2 m3 x, .equals m1 m2 m3 x])
    (h : Completed i s s') : ∃ op, AluEffect op m1 m2 m3 s s' := by
  simp only [List.mem_cons, List.not_mem_nil, or_false] at hi
  obtain rfl | rfl | rfl | rfl := hi
  · exact ⟨.add, h⟩
  · exact ⟨.mul, h⟩
  · exact ⟨.lt, h⟩
  · exact ⟨.eq, h⟩

/-- An ALU instruction changes no cell but its target, which its third operand addresses. -/
theorem AluEffect.cells {op : AluOp} {m1 m2 m3 : Mode} (h : AluEffect op m1 m2 m3 s s') :
    ∃ t : Nat, operandAddr m3 s.rb (s.raw 3) = some (t : Int) ∧ ∀ c, c ≠ t → s'.cell c = s.cell c := by
  obtain ⟨t, r, -, -, -, htarget, -, -, rfl⟩ := h
  exact ⟨t, (target_some htarget).1, fun c hc => read_write_other s.mem r hc⟩

/-- Settles O34: the target is the one cell written. -/
theorem storingInstructionsFrame : Obligations.StoringInstructionsFrame := by
  intro m1 m2 m3 x i s s' hi hexec
  obtain hf | hc := exec_cases hexec
  · exact ⟨fun _ _ c _ => hf.cells c, fun _ => hf.cells, .inl hf.precise⟩
  · obtain ⟨op, he⟩ := completed_storing hi hc
    obtain ⟨t, haddr, hcells⟩ := he.cells
    refine ⟨fun a ha c hca => hcells c ?_, fun hnone => absurd (haddr.symm.trans hnone) nofun, .inr ?_⟩
    · rintro rfl
      exact hca (Option.some.inj (haddr.symm.trans ha))
    · obtain ⟨t, r, -, -, -, -, -, hg, rfl⟩ := he
      exact ⟨hg.memLen_bounds.1.trans (le_max_left ..), rfl, rfl, rfl, rfl, rfl, rfl, rfl, rfl, rfl, rfl, rfl, rfl⟩

/-- Settles O35: a completed jump changes `mem_len` and pc. -/
theorem jumpsFrame : Obligations.JumpsFrame := by
  intro m1 m2 x i s s' hi hexec
  obtain hf | hc := exec_cases hexec
  · exact ⟨hf.cells, .inl hf.precise⟩
  · have he : ∃ sense, JumpEffect sense m1 m2 s s' := by
      simp only [List.mem_cons, List.not_mem_nil, or_false] at hi
      obtain rfl | rfl := hi
      · exact ⟨true, hc⟩
      · exact ⟨false, hc⟩
    obtain ⟨sense, pc, -, -, -, -, hg, rfl⟩ := he
    exact ⟨fun _ => rfl, .inr ⟨hg.memLen_bounds.1, rfl, rfl, rfl, rfl, rfl, rfl, rfl, rfl, rfl, rfl, rfl⟩⟩

/-- Settles O36: a completed INPUT is suspended in memory grown for its raw operand. -/
theorem inputFrame : Obligations.InputFrame := by
  intro m1 x s s' hexec
  obtain hf | ⟨t, -, -, hg, rfl⟩ := exec_cases hexec
  · exact ⟨hf.cells, .inl hf.precise⟩
  · exact ⟨fun _ => rfl, .inr ⟨hg.memLen_bounds.1, rfl, rfl, rfl, rfl, rfl, rfl, rfl, rfl⟩⟩

/-- Settles O37: a completed OUTPUT changes `mem_len`, pc and the channel. -/
theorem outputFrame : Obligations.OutputFrame := by
  intro m1 x s s' hexec
  obtain hf | ⟨-, -, hg, rfl⟩ := exec_cases hexec
  · exact ⟨hf.cells, .inl hf.precise⟩
  · exact ⟨fun _ => rfl, .inr ⟨hg.memLen_bounds.1, rfl, rfl, rfl, rfl, rfl, rfl, rfl, rfl, rfl, rfl⟩⟩

/-- Settles O38: a completed SET_RELATIVE_BASE changes `mem_len`, rb and pc. -/
theorem setRelativeBaseFrame : Obligations.SetRelativeBaseFrame := by
  intro m1 x s s' hexec
  obtain hf | ⟨r, -, -, -, hg, rfl⟩ := exec_cases hexec
  · exact ⟨hf.cells, .inl hf.precise⟩
  · exact ⟨fun _ => rfl, .inr ⟨hg.memLen_bounds.1, rfl, rfl, rfl, rfl, rfl, rfl, rfl, rfl, rfl, rfl, rfl⟩⟩

/-- Settles O39: TERMINATE halts and emits the snapshot. -/
theorem terminateFrame : Obligations.TerminateFrame := by
  intro x s s' hexec
  obtain rfl := Host.Outcome.next.inj hexec
  exact ⟨fun _ => rfl, rfl, rfl, rfl, rfl, rfl, rfl, rfl, rfl, rfl⟩

end Sys2Proof.Machine
end

section
/-! PROOF. Rules about every step: who writes what, memory's length, and the responses (10_state.md R22 to R31;
20_memory.md R44; 40_execution_cycle.md R89, R91). -/

namespace Sys2Proof.Machine

variable {s s' : State}

/-- A step while a RESUME is served faulted precisely, or the instruction at pc completed. -/
theorem step_cases (hresuming : s.resuming = true) (hrunning : s.state = .running) (h : step s = .next s') :
    FaultsTo s s' ∨ ∃ i, decode s.params.strictModeDigits s.word = .ok i ∧ Completed i (s.grow s.pc) s' := by
  obtain ⟨t, ht, heffect⟩ := step_effect hresuming hrunning
  obtain rfl := Host.Outcome.next.inj (ht.symm.trans h)
  exact heffect.imp_right fun ⟨i, hdecode, _, hc⟩ => ⟨i, hdecode, hc⟩

theorem step_driver_eq (h : ¬ (s.resuming = true ∧ s.state = .running)) (hstep : step s = .next s') :
    s' = driverTurn s := by
  rw [step_driver (by rw [← Bool.not_eq_true]; tauto)] at hstep
  exact (Host.Outcome.next.inj hstep).symm

/-! What a completed instruction can change, by the instruction: one lemma for each part of the state. -/

/-- The instructions that write operand 3 are the ALU's, and no other changes a cell. -/
theorem Completed.cells {i : Instr} (h : Completed i s s') :
    (∀ c, s'.cell c = s.cell c) ∨ i.writeOperand = some 3 ∧
      ∃ t : Nat, operandAddr i.modes.2.2 s.rb (s.raw 3) = some (t : Int) ∧ ∀ c, c ≠ t → s'.cell c = s.cell c := by
  cases i with
  | add | multiply | lessThan | equals => exact .inr ⟨rfl, AluEffect.cells h⟩
  | jumpIfTrue | jumpIfFalse =>
    obtain ⟨pc, -, -, -, -, -, rfl⟩ := h
    exact .inl fun _ => rfl
  | input =>
    obtain ⟨t, -, -, -, rfl⟩ := h
    exact .inl fun _ => rfl
  | output =>
    obtain ⟨-, -, -, rfl⟩ := h
    exact .inl fun _ => rfl
  | setRelativeBase =>
    obtain ⟨r, -, -, -, -, rfl⟩ := h
    exact .inl fun _ => rfl
  | terminate =>
    obtain rfl := h
    exact .inl fun _ => rfl

/-- Settles O40: a fault changes no cell, and of the completed instructions only the storing ones do, in their target. -/
theorem onlyStoringInstructionsChangeCells : Obligations.OnlyStoringInstructionsChangeCells := by
  intro s s' c hresuming hrunning hstep hchanged
  obtain hf | ⟨i, hdecode, hc⟩ := step_cases hresuming hrunning hstep
  · exact absurd (hf.cells c) hchanged
  · obtain hkept | ⟨hwrite, t, haddr, hcells⟩ := hc.cells
    · exact absurd ((hkept c).trans (cell_grow s _ c)) hchanged
    · obtain rfl : c = t := by
        by_contra hne
        exact hchanged ((hcells c hne).trans (cell_grow s _ c))
      exact ⟨i, hdecode, hwrite, by simpa using haddr⟩

/-- What a completed instruction leaves alone beside the cells: each special register has one writer, the fault record has
none, and a response is sent where the service ends. -/
structure CompletedFrame (i : Instr) (s s' : State) : Prop where
  params : s'.params = s.params
  memLen : s.memLen ≤ s'.memLen
  rb : s'.rb ≠ s.rb → ∃ m x, i = .setRelativeBase m x
  halted : s'.halted ≠ s.halted → ∃ x, i = .terminate x
  pendingTarget : s'.pendingTarget ≠ s.pendingTarget → ∃ m x, i = .input m x
  faultRecord : (s'.faultCode, s'.faultPc, s'.faultInfo) = (s.faultCode, s.faultPc, s.faultInfo)
  notFaulted : s.state ≠ .faulted → s'.state ≠ .faulted
  response : (s'.resuming = s.resuming ∧ s'.responses = s.responses) ∨
    (s'.resuming = false ∧ ∃ r, s'.responses = s.responses ++ [r])

/-- An update of cells, `mem_len` and pc is within the frame of every instruction. -/
theorem CompletedFrame.of_cells_and_pc (i : Instr) {m : Memory} {n pc : Nat} (hle : s.memLen ≤ n) :
    CompletedFrame i s { s with mem := m, memLen := n, pc := pc } where
  params := rfl
  memLen := hle
  rb h := absurd rfl h
  halted h := absurd rfl h
  pendingTarget h := absurd rfl h
  faultRecord := rfl
  notFaulted := id
  response := .inl ⟨rfl, rfl⟩

theorem Completed.frame {i : Instr} (h : Completed i s s') : CompletedFrame i s s' := by
  cases i with
  | add | multiply | lessThan | equals =>
    obtain ⟨t, r, -, -, -, -, -, hg, rfl⟩ := h
    exact .of_cells_and_pc _ (hg.memLen_bounds.1.trans (le_max_left ..))
  | jumpIfTrue | jumpIfFalse =>
    obtain ⟨pc, -, -, -, -, hg, rfl⟩ := h
    exact .of_cells_and_pc _ hg.memLen_bounds.1
  | input m x =>
    obtain ⟨t, -, -, hg, rfl⟩ := h
    exact { CompletedFrame.of_cells_and_pc (.input m x) (m := s.mem) (pc := s.pc) hg.memLen_bounds.1 with
      pendingTarget := fun _ => ⟨m, x, rfl⟩
      notFaulted := nofun
      response := .inr ⟨rfl, _, rfl⟩ }
  | output m x =>
    obtain ⟨-, -, hg, rfl⟩ := h
    exact { CompletedFrame.of_cells_and_pc (.output m x) (m := s.mem) (pc := s.pc + 2) hg.memLen_bounds.1 with
      response := .inr ⟨rfl, _, rfl⟩ }
  | setRelativeBase m x =>
    obtain ⟨r, -, -, -, hg, rfl⟩ := h
    exact { CompletedFrame.of_cells_and_pc (.setRelativeBase m x) (m := s.mem) (pc := s.pc + 2) hg.memLen_bounds.1 with
      rb := fun _ => ⟨m, x, rfl⟩ }
  | terminate x =>
    obtain rfl := h
    exact { CompletedFrame.of_cells_and_pc (.terminate x) (m := s.mem) (pc := s.pc) (le_refl s.memLen) with
      halted := fun _ => ⟨x, rfl⟩
      notFaulted := nofun
      response := .inr ⟨rfl, _, rfl⟩ }

/-- The same from the state before the word's fetch, which grew memory only. -/
theorem CompletedFrame.of_grow {i : Instr} {a : Nat} (h : CompletedFrame i (s.grow a) s') : CompletedFrame i s s' where
  params := h.params.trans (grow_params s a)
  memLen := le_trans (by simp) h.memLen
  rb hne := h.rb (by rwa [grow_rb])
  halted hne := h.halted (by rwa [grow_halted])
  pendingTarget hne := h.pendingTarget (by rwa [grow_pendingTarget])
  faultRecord := by simpa using h.faultRecord
  notFaulted hne := h.notFaulted (by rwa [grow_state])
  response := by simpa using h.response

/-- What a step while a RESUME is served leaves alone: a precise fault, or the frame of the instruction at pc. -/
theorem step_frame (hresuming : s.resuming = true) (hrunning : s.state = .running) (h : step s = .next s') :
    PreciseFault s s' ∨ ∃ i, decode s.params.strictModeDigits s.word = .ok i ∧ CompletedFrame i s s' :=
  (step_cases hresuming hrunning h).imp FaultsTo.precise fun ⟨i, hdecode, hc⟩ => ⟨i, hdecode, hc.frame.of_grow⟩

/-- Settles O41: a precise fault writes the fault record alone, and the frame names each register's writer. -/
theorem registersHaveOneWriter : Obligations.RegistersHaveOneWriter := by
  intro s s' hresuming hrunning hstep
  obtain ⟨f, info, n, -, -, rfl⟩ | ⟨i, hdecode, hframe⟩ := step_frame hresuming hrunning hstep
  · exact ⟨fun h => absurd rfl h, fun h => absurd rfl h, fun h => absurd rfl h, fun _ => rfl⟩
  · refine ⟨fun h => ?_, fun h => ?_, fun h => ?_, fun h => absurd hframe.faultRecord h⟩
    · obtain ⟨m, x, rfl⟩ := hframe.rb h
      exact ⟨m, x, hdecode⟩
    · obtain ⟨x, rfl⟩ := hframe.halted h
      exact ⟨x, hdecode⟩
    · obtain ⟨m, x, rfl⟩ := hframe.pendingTarget h
      exact ⟨m, x, hdecode⟩

/-! The driver's turn. -/

/-- Everything a resume call can do: start the run, emit, take a fault, or complete the suspended INPUT (R90). -/
theorem resumeCall_cases (v : Option Word) (s : State) :
    resumeCall v s = s.startRun ∨ (∃ r, resumeCall v s = s.emit r) ∨
    (∃ f info, f ≠ .noFault ∧ resumeCall v s = takeFault f info s) ∨
    ∃ w, resumeCall v s =
      { s with
        mem := s.mem.write s.pendingTarget w
        memLen := max s.memLen (s.pendingTarget + 1)
        pc := s.pc + 2
        state := .running
        resuming := true } := by
  cases hs : s.state with
  | faulted => exact .inr (.inl ⟨_, resumeCall_faulted hs v⟩)
  | halted => exact .inr (.inr (.inl ⟨_, _, by simp, resumeCall_halted hs v⟩))
  | running =>
    cases v with
    | none => exact .inl (by simp only [resumeCall, hs])
    | some v => exact .inr (.inr (.inl ⟨_, _, by simp, resumeCall_running_some hs v⟩))
  | awaitingInput =>
    cases v with
    | none => exact .inr (.inl ⟨_, resumeCall_awaiting_none hs⟩)
    | some v =>
      by_cases ht : s.pendingTarget < s.params.memLimit
      · exact .inr (.inr (.inr ⟨v, resumeCall_awaiting_some hs ht v⟩))
      · refine .inr (.inr (.inl ⟨.capacityError, s.pendingTarget, by simp, ?_⟩))
        simp only [resumeCall, hs, completeInput, memWrite_fault (addressFault_natCast_ge (not_lt.mp ht)), bind_raise,
          state_raise]

/-- LOAD answers, and keeps the parameters; nothing else need survive. -/
theorem loadImage_answers (image : List Word) (s : State) :
    (loadImage image s).params = s.params ∧ ∃ r, (loadImage image s).responses = s.responses ++ [r] := by
  unfold loadImage
  split <;> exact ⟨rfl, _, rfl⟩

theorem loadText_answers (text : List Char) (s : State) :
    (loadText text s).params = s.params ∧ ∃ r, (loadText text s).responses = s.responses ++ [r] := by
  unfold loadText
  split
  · exact loadImage_answers _ s
  · exact ⟨rfl, _, rfl⟩

/-- A resume call keeps the parameters, does not shrink memory, and answers at most once. -/
theorem resumeCall_frame (v : Option Word) (s : State) :
    (resumeCall v s).params = s.params ∧ s.memLen ≤ (resumeCall v s).memLen ∧
    ((resumeCall v s).responses = s.responses ∨ ∃ r, (resumeCall v s).responses = s.responses ++ [r]) := by
  obtain h | ⟨r, h⟩ | ⟨f, info, -, h⟩ | ⟨w, h⟩ := resumeCall_cases v s <;> rw [h]
  · exact ⟨rfl, le_rfl, .inl rfl⟩
  · exact ⟨rfl, le_rfl, .inr ⟨_, rfl⟩⟩
  · exact ⟨rfl, le_rfl, .inr ⟨_, rfl⟩⟩
  · exact ⟨rfl, le_max_left .., .inl rfl⟩

/-- A command keeps the parameters and is answered at most once; only LOAD can shrink memory. -/
theorem acceptCommand_frame (c : Command) (s : State) :
    (acceptCommand c s).params = s.params ∧
    (s.memLen ≤ (acceptCommand c s).memLen ∨ (∃ image, c = .load image) ∨ ∃ text, c = .loadText text) ∧
    ((acceptCommand c s).responses = s.responses ∨ ∃ r, (acceptCommand c s).responses = s.responses ++ [r]) := by
  cases c with
  | load image =>
    obtain ⟨hparams, hanswer⟩ := loadImage_answers image s
    exact ⟨hparams, .inr (.inl ⟨image, rfl⟩), .inr hanswer⟩
  | loadText text =>
    obtain ⟨hparams, hanswer⟩ := loadText_answers text s
    exact ⟨hparams, .inr (.inr ⟨text, rfl⟩), .inr hanswer⟩
  | resume =>
    obtain ⟨hparams, hlen, hanswer⟩ := resumeCall_frame none s
    exact ⟨hparams, .inl hlen, hanswer⟩
  | resumeWith v =>
    obtain ⟨hparams, hlen, hanswer⟩ := resumeCall_frame (some v) s
    exact ⟨hparams, .inl hlen, hanswer⟩

theorem driverTurn_frame (s : State) :
    (driverTurn s).params = s.params ∧
    (s.memLen ≤ (driverTurn s).memLen ∨
      ∃ c rest, s.driver = c :: rest ∧ ((∃ image, c = .load image) ∨ ∃ text, c = .loadText text)) ∧
    ((driverTurn s).responses = s.responses ∨ ∃ r, (driverTurn s).responses = s.responses ++ [r]) := by
  cases hdriver : s.driver with
  | nil => rw [driverTurn_nil hdriver]; exact ⟨rfl, .inl le_rfl, .inl rfl⟩
  | cons c rest =>
    rw [driverTurn_cons hdriver]
    obtain ⟨hparams, hlen, hanswer⟩ := acceptCommand_frame c { s with driver := rest }
    exact ⟨hparams, hlen.imp_right fun hload => ⟨c, rest, rfl, hload⟩, hanswer⟩

/-- Settles O42: a served instruction only grows memory, and of the driver's commands only LOAD can shrink it. -/
theorem memoryNeverShrinks : Obligations.MemoryNeverShrinks := by
  intro s s' hstep
  by_cases hserve : s.resuming = true ∧ s.state = .running
  · obtain ⟨f, info, n, -, hle, rfl⟩ | ⟨i, -, hframe⟩ := step_frame hserve.1 hserve.2 hstep
    · exact ⟨rfl, .inl hle⟩
    · exact ⟨hframe.params, .inl hframe.memLen⟩
  · obtain rfl := step_driver_eq hserve hstep
    obtain ⟨hparams, hlen, -⟩ := driverTurn_frame s
    exact ⟨hparams, hlen⟩

/-- Settles O43: a fault and the instructions that end the service emit once, the others not at all, and a command is
answered at most once. -/
theorem oneResponsePerStep : Obligations.OneResponsePerStep := by
  intro s s' hstep
  by_cases hserve : s.resuming = true ∧ s.state = .running
  · have hserved : (s'.resuming = true ∧ s'.responses = s.responses) ∨
        (s'.resuming = false ∧ ∃ r, s'.responses = s.responses ++ [r]) := by
      obtain ⟨f, info, n, -, -, rfl⟩ | ⟨i, -, hframe⟩ := step_frame hserve.1 hserve.2 hstep
      · exact .inr ⟨rfl, _, rfl⟩
      · exact hserve.1 ▸ hframe.response
    exact ⟨hserved.imp And.right And.right, fun _ _ => hserved⟩
  · obtain rfl := step_driver_eq hserve hstep
    exact ⟨(driverTurn_frame s).2.2, fun hresuming hrunning => absurd ⟨hresuming, hrunning⟩ hserve⟩

/-- Settles O33: an instruction that completes does not enter Faulted, and of what a resume call can do only the taking
of a fault does. -/
theorem faultsArePrecise : Obligations.FaultsArePrecise := by
  refine ⟨fun s s' hresuming hrunning hstep hfaulted => ?_,
    fun s s' c rest _ hidle hnot hdriver hc hstep hfaulted => ?_⟩
  · obtain hf | ⟨i, -, hframe⟩ := step_frame hresuming hrunning hstep
    · exact hf
    · exact absurd hfaulted (hframe.notFaulted (by simp [hrunning]))
  · obtain ⟨v, hv⟩ := acceptCommand_of_resume hc { s with driver := rest }
    rw [step_command hidle hdriver, hv] at hstep
    obtain rfl := Host.Outcome.next.inj hstep
    obtain h | ⟨r, h⟩ | h | ⟨w, h⟩ := resumeCall_cases v { s with driver := rest }
    · rw [h] at hfaulted
      exact absurd hfaulted hnot
    · rw [h] at hfaulted
      exact absurd hfaulted hnot
    · exact h
    · rw [h] at hfaulted
      cases hfaulted

end Sys2Proof.Machine
end

section
/-! PROOF. No instruction reads the channel: two runs that differ in it alone do the same (60_exceptions.md R190;
40_execution_cycle.md R91, R102). -/

namespace Sys2Proof.Machine

variable {α β : Type} {s t : State}

/-- The core with another channel: other commands waiting, other responses sent. -/
def State.withChannel (s : State) (d : List Command) (rs : List Response) : State :=
  { s with driver := d, responses := rs }

/-- The result of a stage with the channel of its state replaced. -/
def Res.withChannel (d : List Command) (rs : List Response) : Res α → Res α
  | .ok a s => .ok a (s.withChannel d rs)
  | .raised s => .raised (s.withChannel d rs)

/-- From the core of `s`, the stage takes no command, and whatever the channel is, it sends the same responses and does the
same to the core. -/
def ChannelBlindAt (f : State → Res α) (s : State) : Prop :=
  ∃ new, (f s).state.driver = s.driver ∧ (f s).state.responses = s.responses ++ new ∧
    ∀ d rs, f (s.withChannel d rs) = (f s).withChannel d (rs ++ new)

/-- The stage does not read the channel. -/
def ChannelBlind (f : State → Res α) : Prop := ∀ s, ChannelBlindAt f s

/-- A stage that answers a value and sends `new`. -/
theorem ChannelBlindAt.of_sends {f : State → Res α} {a : α} {new : List Response} (h : f s = .ok a t)
    (hd : t.driver = s.driver) (hr : t.responses = s.responses ++ new)
    (hf : ∀ d rs, f (s.withChannel d rs) = .ok a (t.withChannel d (rs ++ new))) : ChannelBlindAt f s :=
  ⟨new, by rw [h]; exact hd, by rw [h]; exact hr, fun d rs => by rw [h, hf]; rfl⟩

/-- A stage that answers a value and sends nothing. -/
theorem ChannelBlindAt.of_ok {f : State → Res α} {a : α} (h : f s = .ok a t) (hd : t.driver = s.driver)
    (hr : t.responses = s.responses) (hf : ∀ d rs, f (s.withChannel d rs) = .ok a (t.withChannel d rs)) :
    ChannelBlindAt f s :=
  .of_sends (new := []) h hd (by rw [hr, List.append_nil]) fun d rs => by rw [hf, List.append_nil]

/-- A stage that takes a fault sends its event. -/
theorem ChannelBlindAt.of_raise {f : State → Res α} {code : FaultCode} {info : Int}
    (h : ∀ d rs, f (s.withChannel d rs) = raise code info (s.withChannel d rs)) : ChannelBlindAt f s := by
  have hs : f s = raise code info s := h s.driver s.responses
  exact ⟨[.fault code s.pc info], by rw [hs]; rfl, by rw [hs]; rfl, fun d rs => by rw [hs, h]; rfl⟩

/-- A stage that is another one on the core of `s`. -/
theorem ChannelBlindAt.congr {f g : State → Res α} (hg : ChannelBlindAt g s)
    (h : ∀ d rs, f (s.withChannel d rs) = g (s.withChannel d rs)) : ChannelBlindAt f s := by
  have hs : f s = g s := h s.driver s.responses
  obtain ⟨new, hdriver, hresponses, hsame⟩ := hg
  exact ⟨new, by rwa [hs], by rwa [hs], fun d rs => by rw [h, hs, hsame]⟩

/-- Stages compose. -/
theorem ChannelBlind.bind {f : State → Res α} {k : α → State → Res β} (hf : ChannelBlind f)
    (hk : ∀ a, ChannelBlind (k a)) : ChannelBlind fun s => (f s).bind k := by
  intro s
  obtain ⟨new, hdriver, hresponses, hsame⟩ := hf s
  cases hfs : f s with
  | raised t =>
    simp only [hfs, state_raised] at hdriver hresponses hsame
    refine ⟨new, ?_, ?_, fun d rs => ?_⟩
    · simp only [hfs, bind_raised, state_raised, hdriver]
    · simp only [hfs, bind_raised, state_raised, hresponses]
    · simp only [hfs, hsame]
      rfl
  | ok a t =>
    simp only [hfs, state_ok] at hdriver hresponses hsame
    obtain ⟨new', hdriver', hresponses', hsame'⟩ := hk a t
    refine ⟨new ++ new', ?_, ?_, fun d rs => ?_⟩
    · simp only [hfs, bind_ok, hdriver', hdriver]
    · simp only [hfs, bind_ok, hresponses', hresponses, List.append_assoc]
    · simp only [hfs, hsame, ← List.append_assoc]
      exact hsame' d (rs ++ new)

/-! The stages. -/

theorem pure_channelBlind (a : α) : ChannelBlind (.ok a) := fun _ => .of_ok rfl rfl rfl fun _ _ => rfl

theorem grow_withChannel (s : State) (n : Nat) (d : List Command) (rs : List Response) :
    (s.withChannel d rs).grow n = (s.grow n).withChannel d rs := by
  rw [grow_eq, grow_eq]
  rfl

theorem addrCheck_channelBlind (a : Int) : ChannelBlind (addrCheck a) := by
  intro s
  cases hf : addressFault s.params.memLimit a with
  | none => exact .of_ok (addrCheck_ok hf) rfl rfl fun _ _ => addrCheck_ok hf
  | some f => exact .of_raise fun _ _ => addrCheck_fault hf

theorem memRead_channelBlind (a : Int) : ChannelBlind (memRead a) :=
  (addrCheck_channelBlind a).bind fun n s => .of_ok rfl (grow_driver s n) (grow_responses s n) fun d rs => by
    rw [grow_withChannel]
    rfl

theorem memWrite_channelBlind (a : Int) (v : Word) : ChannelBlind (memWrite a v) :=
  (addrCheck_channelBlind a).bind fun n s => .of_ok rfl (grow_driver s n) (grow_responses s n) fun d rs => by
    rw [grow_withChannel]
    rfl

theorem fetchRaw_channelBlind (k : Nat) : ChannelBlind (fetchRaw k) :=
  fun s => memRead_channelBlind ((s.pc + k : Nat) : Int) s

theorem resolveRead_channelBlind (m : Mode) (raw : Word) : ChannelBlind (resolveRead m raw) := by
  intro s
  cases ha : operandAddr m s.rb raw with
  | none => exact (pure_channelBlind raw s).congr fun _ _ => by simp [resolveRead, State.withChannel, ha]
  | some a => exact (memRead_channelBlind a s).congr fun _ _ => resolveRead_of_addr ha

theorem resolveWrite_channelBlind (m : Mode) (raw w : Word) : ChannelBlind (resolveWrite m raw w) := by
  intro s
  cases ha : operandAddr m s.rb raw with
  | none =>
    exact .of_raise (code := .invalidWriteModeError) (info := w.toInt) fun _ _ => by
      simp [resolveWrite, State.withChannel, ha]
  | some a => exact (addrCheck_channelBlind a s).congr fun _ _ => resolveWrite_of_addr ha

theorem operandsF3W_channelBlind (m1 m2 m3 : Mode) (w : Word) : ChannelBlind (operandsF3W m1 m2 m3 w) :=
  (fetchRaw_channelBlind 1).bind fun r1 => (fetchRaw_channelBlind 2).bind fun r2 => (fetchRaw_channelBlind 3).bind fun r3 =>
    (resolveRead_channelBlind m1 r1).bind fun _ => (resolveRead_channelBlind m2 r2).bind fun _ =>
      (resolveWrite_channelBlind m3 r3 w).bind fun _ => pure_channelBlind _

theorem operandsF2R_channelBlind (m1 m2 : Mode) : ChannelBlind (operandsF2R m1 m2) :=
  (fetchRaw_channelBlind 1).bind fun r1 => (fetchRaw_channelBlind 2).bind fun r2 =>
    (resolveRead_channelBlind m1 r1).bind fun _ => (resolveRead_channelBlind m2 r2).bind fun _ => pure_channelBlind _

theorem operandF1R_channelBlind (m1 : Mode) : ChannelBlind (operandF1R m1) :=
  (fetchRaw_channelBlind 1).bind fun r1 => resolveRead_channelBlind m1 r1

theorem operandF1W_channelBlind (m1 : Mode) (w : Word) : ChannelBlind (operandF1W m1 w) :=
  (fetchRaw_channelBlind 1).bind fun r1 => resolveWrite_channelBlind m1 r1 w

theorem aluStage_channelBlind (op : AluOp) (a b w : Word) : ChannelBlind (aluStage op a b w) := by
  intro s
  cases halu : alu op a b with
  | none => exact .of_raise fun _ _ => aluStage_overflow halu
  | some r => exact (pure_channelBlind r s).congr fun _ _ => aluStage_ok halu

theorem aluInstr_channelBlind (op : AluOp) (m1 m2 m3 : Mode) (w : Word) : ChannelBlind (aluInstr op m1 m2 m3 w) :=
  (operandsF3W_channelBlind m1 m2 m3 w).bind fun _ => (aluStage_channelBlind op _ _ w).bind fun r =>
    (memWrite_channelBlind _ r).bind fun _ _ => .of_ok rfl rfl rfl fun _ _ => rfl

theorem jumpTo_channelBlind (v : Word) : ChannelBlind (jumpTo v) := by
  intro s
  by_cases hneg : v.toInt < 0
  · exact .of_raise fun _ _ => jumpTo_negative hneg
  · exact .of_ok (jumpTo_ok (not_lt.mp hneg)) rfl rfl fun _ _ => jumpTo_ok (not_lt.mp hneg)

theorem jumpInstr_channelBlind (sense : Bool) (m1 m2 : Mode) : ChannelBlind (jumpInstr sense m1 m2) :=
  (operandsF2R_channelBlind m1 m2).bind fun o s => by
    by_cases htaken : truth o.1 = sense
    · exact (jumpTo_channelBlind o.2 s).congr fun _ _ => if_pos htaken
    · exact .of_ok (if_neg htaken) rfl rfl fun _ _ => if_neg htaken

/-- The end of SET_RELATIVE_BASE. -/
theorem addToRb_channelBlind (v w : Word) :
    ChannelBlind fun s => (aluStage .add s.rb v w s).bind fun r s => .ok () ((s.setRb r).advance 2) :=
  fun s => ((aluStage_channelBlind .add s.rb v w).bind (k := fun r s => .ok () ((s.setRb r).advance 2))
    (fun _ _ => .of_ok rfl rfl rfl fun _ _ => rfl) s).congr fun _ _ => rfl

/-- The meaning of every instruction is a stage that does not read the channel. -/
theorem exec_channelBlind (i : Instr) :
    ∃ f : State → Res Unit, ChannelBlind f ∧ ∀ s, exec i s = (f s).outcome := by
  cases i with
  | add | multiply | lessThan | equals => exact ⟨_, aluInstr_channelBlind _ _ _ _ _, fun _ => rfl⟩
  | jumpIfTrue | jumpIfFalse => exact ⟨_, jumpInstr_channelBlind _ _ _, fun _ => rfl⟩
  | input m1 x =>
    exact ⟨_, (operandF1W_channelBlind m1 _).bind (k := fun t s => .ok () (suspendInput t s))
      fun _ _ => .of_sends rfl rfl rfl fun _ _ => rfl, fun _ => rfl⟩
  | output m1 x =>
    exact ⟨_, (operandF1R_channelBlind m1).bind (k := fun v s => .ok () ((s.advance 2).emit (.output v)))
      fun _ _ => .of_sends rfl rfl rfl fun _ _ => rfl, fun _ => rfl⟩
  | setRelativeBase m1 x =>
    exact ⟨_, (operandF1R_channelBlind m1).bind fun v => addToRb_channelBlind v (encode (.setRelativeBase m1 x)),
      fun _ => rfl⟩
  | terminate x =>
    exact ⟨fun s => .ok () (s.halt.emit (.halted s.snapshot)), fun _ => .of_sends rfl rfl rfl fun _ _ => rfl,
      fun _ => rfl⟩

theorem fetchDecode_channelBlind : ChannelBlind fetchDecode := by
  intro s
  refine ((memRead_channelBlind (s.pc : Int)).bind fun w t => ?_) s
  cases hd : decode t.params.strictModeDigits w with
  | ok i => exact (pure_channelBlind i t).congr fun _ _ => by simp [State.withChannel, hd]
  | error e =>
    exact .of_raise (code := faultOfDecodeError e) (info := w.toInt) fun _ _ => by simp [State.withChannel, hd]

/-- A step while a RESUME is served is a stage that does not read the channel. -/
theorem step_channelBlind :
    ∃ f : State → Res Unit, ChannelBlind f ∧
      ∀ s, s.resuming = true → s.state = .running → step s = (f s).outcome := by
  choose f hblind hexec using exec_channelBlind
  refine ⟨_, fetchDecode_channelBlind.bind hblind, fun s hresuming hrunning => ?_⟩
  rw [step_serving hresuming hrunning]
  cases fetchDecode s with
  | ok i t => exact hexec i t
  | raised t => rfl

theorem state_withChannel (r : Res α) (d : List Command) (rs : List Response) :
    (r.withChannel d rs).state = r.state.withChannel d rs := by
  cases r <;> rfl

/-- Settles O44: the step is a stage that does not read the channel, run with both channels. -/
theorem driverCannotInfluenceService : Obligations.DriverCannotInfluenceService := by
  intro s d rs hresuming hrunning
  obtain ⟨f, hblind, hstep⟩ := step_channelBlind
  obtain ⟨new, hdriver, hresponses, hsame⟩ := hblind s
  refine ⟨(f s).state, new, hstep s hresuming hrunning, hdriver, hresponses, ?_⟩
  refine (hstep (s.withChannel d rs) hresuming hrunning).trans (congrArg Host.Outcome.next ?_)
  rw [hsame, state_withChannel]
  rfl

end Sys2Proof.Machine
end

section
/-! PROOF. The 99 words of the strict decoder, and the words with excess digits above them (30_encoding.md R66, R72). -/

namespace Sys2Proof.Laws

/-- The modes of a read operand, and those of a write operand (R63, R64). -/
def readModes : List Mode := [.position, .immediate, .relative]

def writeModes : List Mode := [.position, .relative]

theorem mem_readModes (m : Mode) : m ∈ readModes := by cases m <;> decide

theorem mem_writeModes {m : Mode} : m ∈ writeModes ↔ m ≠ .immediate := by cases m <;> decide

/-- The instructions without excess digits of the formats with three and with two operands. -/
def instrsF3W (make : Mode → Mode → Mode → Nat → Instr) : List Instr :=
  readModes.flatMap fun m1 => readModes.flatMap fun m2 => writeModes.map fun m3 => make m1 m2 m3 0

def instrsF2R (make : Mode → Mode → Nat → Instr) : List Instr :=
  readModes.flatMap fun m1 => readModes.map fun m2 => make m1 m2 0

/-- The instructions the strict decoder gives. -/
def strictInstrs : List Instr :=
  instrsF3W .add ++ instrsF3W .multiply ++ writeModes.map (.input · 0) ++ readModes.map (.output · 0) ++
    instrsF2R .jumpIfTrue ++ instrsF2R .jumpIfFalse ++ instrsF3W .lessThan ++ instrsF3W .equals ++
    readModes.map (.setRelativeBase · 0) ++ [.terminate 0]

theorem wellFormed_strict_iff {i : Instr} : i.wellFormed true = true ↔ TargetsAllowed i ∧ i.excess = 0 := by
  cases i <;>
    simp [Instr.wellFormed, excessFits, writable_iff, TargetsAllowed, Instr.writeOperand, Instr.modes, Instr.excess]

theorem mem_strictInstrs {i : Instr} : i ∈ strictInstrs ↔ i.wellFormed true = true := by
  rw [wellFormed_strict_iff]
  cases i <;>
    simp [strictInstrs, instrsF3W, instrsF2R, mem_readModes, mem_writeModes, TargetsAllowed, Instr.writeOperand,
      Instr.modes, Instr.excess, eq_comm]

/-- The list, a closed one, names no instruction twice. -/
theorem strictInstrs_nodup : strictInstrs.Nodup := by
  decide

theorem instrsF3W_opcodes {make : Mode → Mode → Mode → Nat → Instr} {c : Nat}
    (h : ∀ m1 m2 m3, (make m1 m2 m3 0).opcode = c) : (instrsF3W make).map Instr.opcode = List.replicate 18 c := by
  simp [instrsF3W, readModes, writeModes, h, List.replicate]

theorem instrsF2R_opcodes {make : Mode → Mode → Nat → Instr} {c : Nat} (h : ∀ m1 m2, (make m1 m2 0).opcode = c) :
    (instrsF2R make).map Instr.opcode = List.replicate 9 c := by
  simp [instrsF2R, readModes, h, List.replicate]

theorem strictInstrs_opcodes : strictInstrs.map Instr.opcode =
    List.replicate 18 1 ++ List.replicate 18 2 ++ List.replicate 2 3 ++ List.replicate 3 4 ++ List.replicate 9 5 ++
      List.replicate 9 6 ++ List.replicate 18 7 ++ List.replicate 18 8 ++ List.replicate 3 9 ++ List.replicate 1 99 := by
  simp only [strictInstrs, List.map_append]
  rw [instrsF3W_opcodes (c := 1) fun _ _ _ => rfl, instrsF3W_opcodes (c := 2) fun _ _ _ => rfl,
    instrsF3W_opcodes (c := 7) fun _ _ _ => rfl, instrsF3W_opcodes (c := 8) fun _ _ _ => rfl,
    instrsF2R_opcodes (c := 5) fun _ _ => rfl, instrsF2R_opcodes (c := 6) fun _ _ => rfl]
  rfl

/-- How many legal words an opcode has (R72). -/
theorem count_strictInstrs_opcodes (op : Nat) : (strictInstrs.map Instr.opcode).count op =
    if op = 1 ∨ op = 2 ∨ op = 7 ∨ op = 8 then 18 else if op = 3 then 2 else if op = 4 ∨ op = 9 then 3
    else if op = 5 ∨ op = 6 then 9 else if op = 99 then 1 else 0 := by
  simp only [strictInstrs_opcodes, List.count_append, List.count_replicate, beq_iff_eq, eq_comm (b := op)]
  by_cases hlisted : op ∈ [1, 2, 3, 4, 5, 6, 7, 8, 9, 99]
  · simp only [List.mem_cons, List.not_mem_nil, or_false] at hlisted
    obtain rfl | rfl | rfl | rfl | rfl | rfl | rfl | rfl | rfl | rfl := hlisted <;> rfl
  · simp only [List.mem_cons, List.not_mem_nil, or_false, not_or] at hlisted
    simp [hlisted]

/-- The words that are legal under STRICT_MODE_DIGITS. -/
def legalWords : List Word := strictInstrs.map encode

theorem mem_legalWords {w : Word} : w ∈ legalWords ↔ ∃ i, decode true w = .ok i := by
  simp only [legalWords, List.mem_map, mem_strictInstrs]
  constructor
  · rintro ⟨i, hwf, rfl⟩
    exact ⟨i, decodeEncodeRoundTrip true i hwf⟩
  · rintro ⟨i, h⟩
    exact ⟨i, encodeDecodeRoundTrip true w i h⟩

/-- Different instructions have different words, since the decoder tells the words apart. -/
theorem legalWords_nodup : legalWords.Nodup := by
  refine strictInstrs_nodup.map_on fun i hi j hj h => Except.ok.inj (ε := DecodeError) ?_
  rw [← decodeEncodeRoundTrip true i (mem_strictInstrs.mp hi), h, decodeEncodeRoundTrip true j (mem_strictInstrs.mp hj)]

theorem length_filter_legalWords (op : Nat) :
    (legalWords.filter fun w => decide (w.toNat % 100 = op)).length = (strictInstrs.map Instr.opcode).count op := by
  rw [← List.countP_eq_length_filter, legalWords, List.countP_map, List.count, List.countP_map]
  refine List.countP_congr fun i hi => ?_
  obtain ⟨hopcode, -⟩ := digits i
  simp [encode_toNat (mem_strictInstrs.mp hi), hopcode]

/-! Words with excess digits. -/

theorem operandCount_of_opcode {i j : Instr} (h : i.opcode = j.opcode) : i.operandCount = j.operandCount := by
  have hrow := opcodeTable_opcode i
  rw [h, opcodeTable_opcode] at hrow
  exact (congrArg OpcodeRow.operandCount (Option.some.inj hrow)).symm

/-- A word of the strict decoder has no digit from 10^(n+2) on. -/
theorem toNat_lt_of_decode_strict {w : Word} {i : Instr} (h : decode true w = .ok i) :
    w.toNat < 10 ^ (i.operandCount + 2) := by
  obtain ⟨-, -, -, -, hexcess⟩ := digits i
  have hnone : i.excess = 0 := by simpa [NoExcess] using noExcess_of_decode h
  rw [encodeNat_of_decodeNat (decode_ok h).2, hnone] at hexcess
  exact (Nat.div_eq_zero_iff_lt (by positivity)).mp hexcess

/-- What the strict decoder accepts, the other decoder reads the same. -/
theorem decode_of_decode_strict {w : Word} {i : Instr} (h : decode true w = .ok i) : decode false w = .ok i := by
  obtain ⟨h0, hnat⟩ := decode_ok h
  rw [decode_of_nonneg h0, ← encodeNat_of_decodeNat hnat]
  exact decodeNat_encodeNat (decodeNat_targetsAllowed hnat) rfl

/-- With k written above a strict word, the other decoder reads the same opcode and modes, and k as the excess. -/
theorem decode_with_excess {w : Word} {i : Instr} {k : Nat} (h : decode true w = .ok i)
    (hfits : w.toNat + k * 10 ^ (i.operandCount + 2) ≤ 9223372036854775807) :
    ∃ i', decode false (BitVec.ofNat 64 (w.toNat + k * 10 ^ (i.operandCount + 2))) = .ok i' ∧
      i'.opcode = i.opcode ∧ i'.modes = i.modes ∧ i'.excess = k := by
  have hlt := toNat_lt_of_decode_strict h
  have hopcode := decodeNat_opcode (decode_ok h).2
  have hdecode := decode_of_decode_strict h
  generalize hv : w.toNat + k * 10 ^ (i.operandCount + 2) = v at hfits ⊢
  have hmod : v % 10 ^ (i.operandCount + 2) = w.toNat := by
    rw [← hv, Nat.add_mul_mod_self_right, Nat.mod_eq_of_lt hlt]
  have hdiv : v / 10 ^ (i.operandCount + 2) = k := by
    rw [← hv, Nat.add_mul_div_right _ _ (by positivity), Nat.div_eq_of_lt hlt, Nat.zero_add]
  have hlow : v % 10 ^ (i.operandCount + 2) % 100 = v % 100 :=
    Nat.mod_mod_of_dvd _ (pow_dvd_pow 10 (Nat.le_add_left 2 i.operandCount))
  have hvalue : (BitVec.ofNat 64 v).toNat = v := by
    rw [BitVec.toNat_ofNat]
    omega
  have hnonneg : 0 ≤ (BitVec.ofNat 64 v).toInt := by
    rw [BitVec.toInt_eq_toNat_cond, hvalue]
    split <;> omega
  have hrow : opcodeTable ((BitVec.ofNat 64 v).toNat % 100) = some ⟨i.operandCount, i.writeOperand⟩ := by
    rw [hvalue, ← hlow, hmod, hopcode, opcodeTable_opcode]
  have hagree := decode_ignoresExcess hnonneg hrow
  rw [hvalue, hmod, BitVec.ofNat_toNat, BitVec.setWidth_eq] at hagree
  obtain ⟨i', hi', hsameOpcode, hsameModes⟩ := ok_of_map_opcodeAndModes_eq hagree hdecode
  obtain ⟨-, -, -, -, hexcess⟩ := digits i'
  rw [encodeNat_of_decodeNat (decode_ok hi').2, operandCount_of_opcode hsameOpcode, hvalue, hdiv] at hexcess
  exact ⟨i', hi', hsameOpcode, hsameModes, hexcess.symm⟩

/-- Settles O9: the legal words are those of `strictInstrs`, counted by opcode; k above a legal word is
`decode_with_excess`. -/
theorem strictLegalWordsAre99 : Obligations.StrictLegalWordsAre99 := by
  refine ⟨⟨legalWords, legalWords_nodup, rfl, fun _ => mem_legalWords, fun op => ?_, fun w hw => ?_⟩,
    fun w i k h hfits => ?_⟩
  · rw [length_filter_legalWords, count_strictInstrs_opcodes]
  · simp only [List.mem_cons, List.not_mem_nil, or_false] at hw
    rw [mem_legalWords]
    obtain rfl | rfl | rfl | rfl | rfl | rfl | rfl | rfl | rfl := hw <;> exact ⟨_, rfl⟩
  · have hword := (toInt_of_nonneg (decode_ok h).1).1
    have hvalue : w.toInt + k * 10 ^ (i.operandCount + 2) =
        ((w.toNat + k * 10 ^ (i.operandCount + 2) : Nat) : Int) := by
      rw [hword]
      push_cast
      rfl
    rw [hvalue] at hfits ⊢
    rw [Word.ofInt, BitVec.ofInt_natCast]
    exact decode_with_excess h (by exact_mod_cast hfits.2)

end Sys2Proof.Laws
end

section
/-! PROOF. The word an instruction line emits (30_encoding.md R74). -/

namespace Sys2Proof.Machine

open Sys2Proof.Laws

variable {opcode : Nat} {operands : List AsmOperand}

/-- The operands' modes fill the three mode fields, those the line does not use as Position. -/
def FillsModes (operands : List AsmOperand) (i : Instr) : Prop :=
  operands.map (·.mode) ++ List.replicate (3 - operands.length) .position = [i.modes.1, i.modes.2.1, i.modes.2.2]

/-- A line of a listed opcode with its operands, the target not Immediate, is an instruction. -/
theorem exists_instr_of_operands {row : OpcodeRow} (hrow : opcodeTable opcode = some row)
    (hlen : operands.length = row.operandCount)
    (hwrite : ∀ k, row.writeOperand = some k → ∀ o ∈ operands[k - 1]?, o.mode ≠ .immediate) :
    ∃ i, TargetsAllowed i ∧ i.opcode = opcode ∧ i.excess = 0 ∧ FillsModes operands i := by
  unfold opcodeTable at hrow
  split at hrow <;> cases hrow
  case h_1 =>
    obtain ⟨o1, o2, o3, rfl⟩ := List.length_eq_three.mp hlen
    exact ⟨.add o1.mode o2.mode o3.mode 0, targetsAllowed_of_third rfl (hwrite 3 rfl o3 rfl), rfl, rfl, rfl⟩
  case h_2 =>
    obtain ⟨o1, o2, o3, rfl⟩ := List.length_eq_three.mp hlen
    exact ⟨.multiply o1.mode o2.mode o3.mode 0, targetsAllowed_of_third rfl (hwrite 3 rfl o3 rfl), rfl, rfl, rfl⟩
  case h_3 =>
    obtain ⟨o1, rfl⟩ := List.length_eq_one_iff.mp hlen
    exact ⟨.input o1.mode 0, targetsAllowed_of_first rfl (hwrite 1 rfl o1 rfl), rfl, rfl, rfl⟩
  case h_4 =>
    obtain ⟨o1, rfl⟩ := List.length_eq_one_iff.mp hlen
    exact ⟨.output o1.mode 0, targetsAllowed_of_reads rfl, rfl, rfl, rfl⟩
  case h_5 =>
    obtain ⟨o1, o2, rfl⟩ := List.length_eq_two.mp hlen
    exact ⟨.jumpIfTrue o1.mode o2.mode 0, targetsAllowed_of_reads rfl, rfl, rfl, rfl⟩
  case h_6 =>
    obtain ⟨o1, o2, rfl⟩ := List.length_eq_two.mp hlen
    exact ⟨.jumpIfFalse o1.mode o2.mode 0, targetsAllowed_of_reads rfl, rfl, rfl, rfl⟩
  case h_7 =>
    obtain ⟨o1, o2, o3, rfl⟩ := List.length_eq_three.mp hlen
    exact ⟨.lessThan o1.mode o2.mode o3.mode 0, targetsAllowed_of_third rfl (hwrite 3 rfl o3 rfl), rfl, rfl, rfl⟩
  case h_8 =>
    obtain ⟨o1, o2, o3, rfl⟩ := List.length_eq_three.mp hlen
    exact ⟨.equals o1.mode o2.mode o3.mode 0, targetsAllowed_of_third rfl (hwrite 3 rfl o3 rfl), rfl, rfl, rfl⟩
  case h_9 =>
    obtain ⟨o1, rfl⟩ := List.length_eq_one_iff.mp hlen
    exact ⟨.setRelativeBase o1.mode 0, targetsAllowed_of_reads rfl, rfl, rfl, rfl⟩
  case h_10 =>
    obtain rfl := List.length_eq_zero_iff.mp hlen
    exact ⟨.terminate 0, targetsAllowed_of_reads rfl, rfl, rfl, rfl⟩

theorem toDigit_position : Mode.position.toDigit = 0 := rfl

/-- Without excess digits a word is the opcode and the three mode digits, as an unused field's digit is 0. -/
theorem encodeNat_of_no_excess {i : Instr} (hx : i.excess = 0) :
    encodeNat i = i.opcode + (100 * i.modes.1.toDigit + 1000 * i.modes.2.1.toDigit + 10000 * i.modes.2.2.toDigit) := by
  cases i <;> cases hx <;>
    simp [encodeNat, Instr.opcode, Instr.modes, toDigit_position, Nat.add_assoc]

/-- The assembler writes the mode digits of the filled fields. -/
theorem modeDigits_of_fillsModes {i : Instr} (h : FillsModes operands i) :
    modeDigits 100 operands =
      100 * i.modes.1.toDigit + 1000 * i.modes.2.1.toDigit + 10000 * i.modes.2.2.toDigit := by
  unfold FillsModes at h
  generalize i.modes = m at h ⊢
  obtain ⟨m1, m2, m3⟩ := m
  match operands with
  | [] | [_] | [_, _] | [_, _, _] =>
    obtain ⟨rfl, rfl, rfl⟩ : _ = m1 ∧ _ = m2 ∧ _ = m3 := by simpa [List.replicate] using h
    simp [modeDigits, toDigit_position, Nat.add_assoc]
  | _ :: _ :: _ :: _ :: _ => simp at h

/-- Settles O55: the emitted word is the word of the line's instruction, which the decoder reads back. -/
theorem assembledWordDecodes : Obligations.AssembledWordDecodes := by
  intro labels opcode operands row vs hrow hlen hresolved hwrite
  obtain ⟨i, ht, rfl, hx, hmodes⟩ := exists_instr_of_operands hrow hlen hwrite
  have hword : encodeNat i = i.opcode + modeDigits 100 operands := by
    rw [encodeNat_of_no_excess hx, modeDigits_of_fillsModes hmodes]
  have hwf : i.wellFormed true = true := wellFormed_strict_iff.mpr ⟨ht, hx⟩
  refine ⟨encodeNat i, i, ?_, decodeEncodeRoundTrip true i hwf, rfl, hx, hmodes⟩
  simp only [AsmItem.emit, hrow, hlen, ↓reduceIte, hresolved, Option.map_some, hword]

end Sys2Proof.Machine
end

section
/-! PROOF. The pieces of a text between separators (70_reset_and_hazards.md R201). -/

namespace Sys2Proof.Machine

variable {sep : Char}

theorem splitAtChar_sep (rest : List Char) : splitAtChar sep (sep :: rest) = [] :: splitAtChar sep rest := if_pos rfl

/-- A character that is no separator belongs to the first piece. -/
theorem splitAtChar_other {c : Char} {rest piece : List Char} {pieces : List (List Char)} (hc : c ≠ sep)
    (h : splitAtChar sep rest = piece :: pieces) : splitAtChar sep (c :: rest) = (c :: piece) :: pieces := by
  rw [splitAtChar, if_neg hc, h]

/-- A text has at least one piece. -/
theorem exists_splitAtChar_eq_cons (text : List Char) : ∃ piece pieces, splitAtChar sep text = piece :: pieces := by
  induction text with
  | nil => exact ⟨_, _, rfl⟩
  | cons c rest ih =>
    obtain ⟨piece, pieces, h⟩ := ih
    by_cases hc : c = sep
    · subst hc
      exact ⟨_, _, splitAtChar_sep rest⟩
    · exact ⟨_, _, splitAtChar_other hc h⟩

theorem intercalate_cons_head (c : Char) (piece : List Char) (pieces : List (List Char)) :
    List.intercalate [sep] ((c :: piece) :: pieces) = c :: List.intercalate [sep] (piece :: pieces) := by
  cases pieces <;> simp [List.intercalate_cons_cons]

/-- The pieces joined by separators are the text. -/
theorem intercalate_splitAtChar (text : List Char) : List.intercalate [sep] (splitAtChar sep text) = text := by
  induction text with
  | nil => rfl
  | cons c rest ih =>
    obtain ⟨piece, pieces, h⟩ := exists_splitAtChar_eq_cons (sep := sep) rest
    by_cases hc : c = sep
    · subst hc
      rw [h] at ih
      rw [splitAtChar_sep, h, List.intercalate_cons_cons, ih]
      rfl
    · rw [splitAtChar_other hc h, intercalate_cons_head, ← h, ih]

/-- No piece holds a separator. -/
theorem sep_notMem_of_mem_splitAtChar (text : List Char) : ∀ piece ∈ splitAtChar sep text, sep ∉ piece := by
  induction text with
  | nil => simp [splitAtChar]
  | cons c rest ih =>
    by_cases hc : c = sep
    · subst hc
      simpa [splitAtChar_sep] using ih
    · obtain ⟨piece, pieces, h⟩ := exists_splitAtChar_eq_cons (sep := sep) rest
      rw [h, List.forall_mem_cons] at ih
      rw [splitAtChar_other hc h, List.forall_mem_cons]
      exact ⟨by simpa [Ne.symm hc] using ih.1, ih.2⟩

/-- A text without a separator is one piece. -/
theorem splitAtChar_of_notMem {piece : List Char} (h : sep ∉ piece) : splitAtChar sep piece = [piece] := by
  induction piece with
  | nil => rfl
  | cons c rest ih =>
    rw [List.mem_cons, not_or] at h
    exact splitAtChar_other (Ne.symm h.1) (ih h.2)

/-- The first separator ends the first piece. -/
theorem splitAtChar_append {piece : List Char} (h : sep ∉ piece) (rest : List Char) :
    splitAtChar sep (piece ++ sep :: rest) = piece :: splitAtChar sep rest := by
  induction piece with
  | nil => exact splitAtChar_sep rest
  | cons c cs ih =>
    rw [List.mem_cons, not_or] at h
    exact splitAtChar_other (Ne.symm h.1) (ih h.2)

end Sys2Proof.Machine
end

section
/-! PROOF. The cells a piece spells, and what LOAD makes of a text (70_reset_and_hazards.md R201). -/

namespace Sys2Proof.Machine

/-! Decimal digits. -/

/-- The characters "0" to "9" (R201). -/
def AllDigits (digits : List Char) : Prop := ∀ c ∈ digits, 48 ≤ c.toNat ∧ c.toNat ≤ 57

/-- The number a run of digits spells after `acc`. -/
def digitsValue (acc : Nat) (digits : List Char) : Nat := digits.foldl (fun n c => n * 10 + (c.toNat - 48)) acc

theorem digitValue_eq_some {c : Char} (h : 48 ≤ c.toNat ∧ c.toNat ≤ 57) : digitValue c = some (c.toNat - 48) := if_pos h

theorem digitValue_eq_none {c : Char} (h : ¬ (48 ≤ c.toNat ∧ c.toNat ≤ 57)) : digitValue c = none := if_neg h

theorem parseDigits_of_allDigits {digits : List Char} (h : AllDigits digits) (acc : Nat) :
    parseDigits acc digits = some (digitsValue acc digits) := by
  induction digits generalizing acc with
  | nil => rfl
  | cons c rest ih =>
    obtain ⟨hc, hrest⟩ := List.forall_mem_cons.mp h
    simp only [parseDigits, digitValue_eq_some hc]
    exact ih hrest _

theorem allDigits_of_parseDigits {cs : List Char} {acc : Nat} (h : parseDigits acc cs ≠ none) : AllDigits cs := by
  induction cs generalizing acc with
  | nil => exact List.forall_mem_nil _
  | cons c rest ih =>
    by_cases hc : 48 ≤ c.toNat ∧ c.toNat ≤ 57
    · simp only [parseDigits, digitValue_eq_some hc] at h
      exact List.forall_mem_cons.mpr ⟨hc, ih h⟩
    · simp only [parseDigits, digitValue_eq_none hc] at h
      exact absurd rfl h

/-- `digit+` spells its decimal value. -/
theorem parseNumber_of_allDigits {digits : List Char} (hne : digits ≠ []) (h : AllDigits digits) :
    parseNumber digits = some (digitsValue 0 digits) := by
  rw [parseNumber, if_neg hne, parseDigits_of_allDigits h]

theorem digits_of_parseNumber {cs : List Char} (h : parseNumber cs ≠ none) : cs ≠ [] ∧ AllDigits cs := by
  unfold parseNumber at h
  split at h
  · exact absurd rfl h
  · next hne => exact ⟨hne, allDigits_of_parseDigits h⟩

/-! Cells. -/

theorem parseCell_minus (digits : List Char) :
    parseCell ('-' :: digits) = (parseNumber digits).map fun n : Nat => -(n : Int) := by
  rw [parseCell, if_pos rfl]
  cases parseNumber digits <;> rfl

theorem parseCell_unsigned {c : Char} (hc : c ≠ '-') (rest : List Char) :
    parseCell (c :: rest) = (parseNumber (c :: rest)).map fun n : Nat => (n : Int) := by
  rw [parseCell, if_neg hc]
  cases parseNumber (c :: rest) <;> rfl

/-- A run of digits spells a cell without a sign, and its negation after one. -/
theorem parseCell_of_allDigits {digits : List Char} (hne : digits ≠ []) (h : AllDigits digits) :
    parseCell digits = some (digitsValue 0 digits : Int) := by
  cases digits with
  | nil => exact absurd rfl hne
  | cons c rest =>
    obtain ⟨hc, -⟩ := List.forall_mem_cons.mp h
    have hsign : c ≠ '-' := by
      rintro rfl
      exact absurd hc.1 (by decide)
    rw [parseCell_unsigned hsign, parseNumber_of_allDigits hne h]
    rfl

/-- What spells a cell is digits, with or without a minus sign before them. -/
theorem digits_of_parseCell {piece : List Char} (h : parseCell piece ≠ none) :
    ∃ digits, digits ≠ [] ∧ AllDigits digits ∧ (piece = digits ∨ piece = '-' :: digits) := by
  cases piece with
  | nil => exact absurd rfl h
  | cons c rest =>
    by_cases hc : c = '-'
    · subst hc
      rw [parseCell_minus, Ne, Option.map_eq_none_iff] at h
      obtain ⟨hne, hdigits⟩ := digits_of_parseNumber h
      exact ⟨rest, hne, hdigits, .inr rfl⟩
    · rw [parseCell_unsigned hc, Ne, Option.map_eq_none_iff] at h
      obtain ⟨hne, hdigits⟩ := digits_of_parseNumber h
      exact ⟨c :: rest, hne, hdigits, .inl rfl⟩

theorem parseCells_eq_some_iff {pieces : List (List Char)} {vs : List Int} :
    parseCells pieces = some vs ↔ pieces.map parseCell = vs.map some := by
  induction pieces generalizing vs with
  | nil => cases vs <;> simp [parseCells]
  | cons piece rest ih =>
    cases hp : parseCell piece with
    | none => cases vs <;> simp [parseCells, hp]
    | some v =>
      cases hr : parseCells rest with
      | none => cases vs <;> simp_all [parseCells]
      | some us => cases vs <;> simp_all [parseCells]

theorem parseCells_eq_none_iff {pieces : List (List Char)} :
    parseCells pieces = none ↔ ∃ piece ∈ pieces, parseCell piece = none := by
  induction pieces with
  | nil => simp [parseCells]
  | cons piece rest ih =>
    cases hp : parseCell piece with
    | none => simp [parseCells, hp]
    | some v =>
      rw [List.exists_mem_cons_iff]
      cases hr : parseCells rest <;> simp_all [parseCells]

/-! Texts. -/

variable {text : List Char}

/-- Where every piece is a cell, the text's program is the cells if they are in INT64. -/
theorem parseProgram_of_cells {vs : List Int} (hne : text ≠ []) (h : parseCells (splitAtChar ',' text) = some vs) :
    parseProgram text = if ∀ v ∈ vs, in64 v then .ok (vs.map Word.ofInt) else .error .range := by
  simp only [parseProgram, if_neg hne, h, List.all_eq_true, decide_eq_true_eq]

theorem parseProgram_of_not_cells (hne : text ≠ []) (h : parseCells (splitAtChar ',' text) = none) :
    parseProgram text = .error .malformed := by
  simp only [parseProgram, if_neg hne, h]

theorem parseProgram_malformed_iff :
    parseProgram text = .error .malformed ↔ text ≠ [] ∧ ∃ piece ∈ splitAtChar ',' text, parseCell piece = none := by
  rw [← parseCells_eq_none_iff]
  by_cases hne : text = []
  · simp [parseProgram, hne]
  · cases hcells : parseCells (splitAtChar ',' text) with
    | none => simp [parseProgram_of_not_cells hne hcells, hne]
    | some vs =>
      rw [parseProgram_of_cells hne hcells]
      split <;> simp

/-- The cells that pieces spell, one for each. -/
theorem exists_piece_iff {pieces : List (List Char)} {vs : List Int} (h : parseCells pieces = some vs) (p : Int → Prop) :
    (∃ piece ∈ pieces, ∃ v, parseCell piece = some v ∧ p v) ↔ ∃ v ∈ vs, p v := by
  have hmem (v : Int) : (∃ piece ∈ pieces, parseCell piece = some v) ↔ v ∈ vs := by
    rw [← List.mem_map, parseCells_eq_some_iff.mp h]
    simp
  simp only [← hmem]
  tauto

theorem parseProgram_range_iff :
    parseProgram text = .error .range ↔ text ≠ [] ∧ (∀ piece ∈ splitAtChar ',' text, parseCell piece ≠ none) ∧
      ∃ piece ∈ splitAtChar ',' text, ∃ v, parseCell piece = some v ∧ ¬ in64 v := by
  have hall : (∀ piece ∈ splitAtChar ',' text, parseCell piece ≠ none) ↔ parseCells (splitAtChar ',' text) ≠ none := by
    rw [Ne, parseCells_eq_none_iff]
    push Not
    rfl
  rw [hall]
  by_cases hne : text = []
  · simp [parseProgram, hne]
  · cases hcells : parseCells (splitAtChar ',' text) with
    | none => simp [parseProgram_of_not_cells hne hcells]
    | some vs =>
      rw [parseProgram_of_cells hne hcells, exists_piece_iff hcells]
      split <;> simp_all

theorem map_toInt_iff {vs : List Int} {image : List Word} :
    ((∀ v ∈ vs, in64 v) ∧ vs.map Word.ofInt = image) ↔ vs = image.map BitVec.toInt := by
  constructor
  · rintro ⟨hfits, rfl⟩
    rw [List.map_map]
    exact (List.map_id _).symm.trans (List.map_congr_left fun v hv => (toInt_ofInt (hfits v hv)).symm)
  · rintro rfl
    refine ⟨fun v hv => ?_, ?_⟩
    · obtain ⟨w, -, rfl⟩ := List.mem_map.mp hv
      exact in64_toInt w
    · rw [List.map_map]
      exact (List.map_congr_left fun w _ => ofInt_toInt w).trans (List.map_id _)

theorem parseProgram_ok_iff {image : List Word} :
    parseProgram text = .ok image ↔
      if text = [] then image = [] else (splitAtChar ',' text).map parseCell = image.map fun c => some c.toInt := by
  split
  · next hnil => simp [parseProgram, hnil, eq_comm]
  · next hne =>
    have hcells : (splitAtChar ',' text).map parseCell = image.map (fun c => some c.toInt) ↔
        parseCells (splitAtChar ',' text) = some (image.map BitVec.toInt) := by
      rw [parseCells_eq_some_iff, List.map_map]
      rfl
    rw [hcells]
    cases h : parseCells (splitAtChar ',' text) with
    | none => simp [parseProgram_of_not_cells hne h]
    | some vs =>
      rw [parseProgram_of_cells hne h, Option.some.injEq, ← map_toInt_iff]
      split
      · next hfits => rw [and_iff_right hfits, Except.ok.injEq]
      · next hfits => exact ⟨nofun, fun ⟨hall, _⟩ => absurd hall hfits⟩

theorem parseProgram_ne_tooLarge : parseProgram text ≠ .error .tooLarge := by
  unfold parseProgram
  split
  · nofun
  · split
    · nofun
    · split <;> nofun

/-- Settles O53: a text that parses is loaded as its image by `loadText`'s definition, the three refusals answer and change
nothing else, and the grammar is that of `parseProgram`'s pieces and cells. -/
theorem loadTextLoadsOrRefuses : Obligations.LoadTextLoadsOrRefuses := by
  refine ⟨fun s text image rest hidle hdriver hparse => ?_, fun s image rest hidle hdriver hlarge => ?_,
    fun s text e rest hidle hdriver hparse => ?_, fun _ => parseProgram_malformed_iff, fun _ => parseProgram_range_iff,
    fun _ _ => parseProgram_ok_iff, fun _ => parseProgram_ne_tooLarge,
    fun text => ⟨intercalate_splitAtChar text, sep_notMem_of_mem_splitAtChar text⟩,
    fun digits hne hdigits => ⟨parseCell_of_allDigits hne hdigits, ?_⟩, fun _ => digits_of_parseCell, rfl, rfl, rfl⟩
  · rw [step_command hidle hdriver, step_load (s := { s with driver := .load image :: rest }) hidle rfl]
    simp only [acceptCommand, loadText, hparse]
  · rw [step_load hidle hdriver]
    simp only [loadImage, if_pos hlarge]
    rfl
  · rw [step_command hidle hdriver]
    simp only [acceptCommand, loadText, hparse]
    rfl
  · rw [parseCell_minus, parseNumber_of_allDigits hne hdigits]
    rfl

end Sys2Proof.Machine
end

section
/-! PROOF. The program text written from cells is read back (30_encoding.md R74; 70_reset_and_hazards.md R201). -/

namespace Sys2Proof.Machine

/-- The digits spell `n`. -/
def Spells (digits : List Char) (n : Nat) : Prop := digits ≠ [] ∧ AllDigits digits ∧ digitsValue 0 digits = n

theorem digitChar_toNat {d : Nat} (h : d < 10) : (Char.ofNat (48 + d)).toNat = 48 + d := by
  have hvalid : (48 + d).isValidChar := .inl (by omega)
  rw [Char.toNat_ofNat, if_pos hvalid]

/-- One digit spells itself, and a digit after a number the number's ten times and itself. -/
theorem spells_digit {d : Nat} (h : d < 10) : Spells [Char.ofNat (48 + d)] d := by
  refine ⟨nofun, ?_, ?_⟩
  · simp only [AllDigits, List.mem_singleton, forall_eq, digitChar_toNat h]
    omega
  · simp [digitsValue, digitChar_toNat h]

theorem Spells.append_digit {digits : List Char} {n d : Nat} (hn : Spells digits n) (h : d < 10) :
    Spells (digits ++ [Char.ofNat (48 + d)]) (n * 10 + d) := by
  obtain ⟨-, hdigits, hvalue⟩ := hn
  obtain ⟨-, hdigit, -⟩ := spells_digit h
  refine ⟨by simp, List.forall_mem_append.mpr ⟨hdigits, hdigit⟩, ?_⟩
  rw [digitsValue] at hvalue ⊢
  simp [hvalue, digitChar_toNat h]

/-- With fuel for its digits, a number is rendered as the digits that spell it, before the text that follows. -/
theorem renderNat_spells (fuel n : Nat) (tail : List Char) (h : n < 10 ^ (fuel + 1)) :
    ∃ digits, Spells digits n ∧ renderNat (fuel + 1) n tail = digits ++ tail := by
  induction fuel generalizing n tail with
  | zero => exact ⟨_, spells_digit (by simpa using h), if_pos (by simpa using h)⟩
  | succ fuel ih =>
    by_cases hn : n < 10
    · exact ⟨_, spells_digit hn, if_pos hn⟩
    · obtain ⟨digits, hspells, hrender⟩ := ih (n / 10) (Char.ofNat (48 + n % 10) :: tail)
        (Nat.div_lt_of_lt_mul (by rwa [← pow_succ']))
      refine ⟨digits ++ [Char.ofNat (48 + n % 10)], ?_, ?_⟩
      · simpa [Nat.div_add_mod'] using hspells.append_digit (Nat.mod_lt n (by omega))
      · rw [renderNat, if_neg hn, hrender, List.append_assoc]
        rfl

/-- A cell is rendered as digits, after a minus sign where it is negative; INT64 needs at most 19. -/
theorem renderCell_spells (v : Word) :
    ∃ digits, Spells digits v.toInt.natAbs ∧ renderCell v = if v.toInt < 0 then '-' :: digits else digits := by
  have := in64_toInt v
  obtain ⟨digits, hspells, hrender⟩ := renderNat_spells 19 v.toInt.natAbs [] (by norm_num; omega)
  rw [List.append_nil] at hrender
  exact ⟨digits, hspells, by rw [renderCell, hrender]⟩

theorem parseCell_renderCell (v : Word) : parseCell (renderCell v) = some v.toInt := by
  obtain ⟨digits, ⟨hne, hdigits, hvalue⟩, hrender⟩ := renderCell_spells v
  rw [hrender]
  split
  · rw [parseCell_minus, parseNumber_of_allDigits hne hdigits, hvalue, Option.map_some]
    congr 1
    omega
  · rw [parseCell_of_allDigits hne hdigits, hvalue]
    congr 1
    omega

/-- A rendered cell holds no comma. -/
theorem comma_notMem_renderCell (v : Word) : ',' ∉ renderCell v := by
  obtain ⟨digits, ⟨-, hdigits, -⟩, hrender⟩ := renderCell_spells v
  have hcomma : ',' ∉ digits := fun hmem => absurd (hdigits _ hmem) (by decide)
  rw [hrender]
  split
  · simpa using hcomma
  · exact hcomma

/-- The pieces of a rendered program are its rendered cells. -/
theorem splitAtChar_renderProgram {image : List Word} (hne : image ≠ []) :
    splitAtChar ',' (renderProgram image) = image.map renderCell := by
  induction image with
  | nil => exact absurd rfl hne
  | cons v rest ih =>
    cases rest with
    | nil => exact splitAtChar_of_notMem (comma_notMem_renderCell v)
    | cons w rest =>
      rw [renderProgram, splitAtChar_append (comma_notMem_renderCell v), ih nofun]
      · rfl
      · nofun

theorem renderProgram_ne_nil {image : List Word} (hne : image ≠ []) : renderProgram image ≠ [] := by
  intro hnil
  have hpieces := splitAtChar_renderProgram hne
  rw [hnil] at hpieces
  have hmem : [] ∈ image.map renderCell := by
    rw [← hpieces]
    exact List.mem_singleton_self []
  obtain ⟨v, -, hv⟩ := List.mem_map.mp hmem
  have hcell := parseCell_renderCell v
  rw [hv] at hcell
  cases hcell

/-- Settles O54: the pieces are the rendered cells, each of which spells its value. -/
theorem renderedProgramParses : Obligations.RenderedProgramParses := by
  intro image
  by_cases hne : image = []
  · rw [hne]
    rfl
  · rw [parseProgram_ok_iff, if_neg (renderProgram_ne_nil hne), splitAtChar_renderProgram hne, List.map_map]
    exact List.map_congr_left fun v _ => parseCell_renderCell v

end Sys2Proof.Machine
end
